-- ==== Sys2Proof/Word.lean ====
section
/-! DEFINITION. The widths of the machine's values (R9 to R11 of 00_scope.md, R20 of 10_state.md). All values are
unsigned; bit 0 is the least significant bit (R10). -/

namespace Sys2Proof

/-- A general register, a timer, an immediate byte `NN`, a memory cell: 8 bits. -/
abbrev Byte := BitVec 8

/-- `I`, `PC`, a return address, an instruction word: 16 bits. -/
abbrev Word := BitVec 16

/-- A 12-bit address operand `NNN` (R11). -/
abbrev Addr12 := BitVec 12

/-- A 4-bit field: an operation family, a row count `N`, a key code. -/
abbrev Nibble := BitVec 4

/-- The index of a general register, 0 … 15 (R21, R93: all 16 values are legal). -/
abbrev RegIdx := BitVec 4

/-- The frame buffer's 2048 bits, pixel (x, y) at bit `y * 64 + x` (R32). -/
abbrev Frame := BitVec 2048

end Sys2Proof
end

