-- ==== Sys2Proof/Syntax.lean ====
section
/-! DEFINITION. The instructions: one constructor for each of the 35 decoder variants of R98 of 30_encoding.md. Each variant
carries its own operand fields (R95 allows this form; log 29). -/

namespace Sys2Proof

/-- An instruction, with the operand fields of its format (R91, R92). -/
inductive Instr where
  /-- `CLS`, 00E0 (R150). -/
  | cls
  /-- `RET`, 00EE (R160). -/
  | ret
  /-- `JP NNN`, 1NNN (R161). -/
  | jp (nnn : Addr12)
  /-- `CALL NNN`, 2NNN (R162). -/
  | call (nnn : Addr12)
  /-- `SE Vx, NN`, 3XNN (R163). -/
  | seImm (x : RegIdx) (nn : Byte)
  /-- `SNE Vx, NN`, 4XNN (R164). -/
  | sneImm (x : RegIdx) (nn : Byte)
  /-- `SE Vx, Vy`, 5XY0 (R165). -/
  | seReg (x y : RegIdx)
  /-- `LD Vx, NN`, 6XNN (R180). -/
  | ldImm (x : RegIdx) (nn : Byte)
  /-- `ADD Vx, NN`, 7XNN (R181). -/
  | addImm (x : RegIdx) (nn : Byte)
  /-- `LD Vx, Vy`, 8XY0 (R182). -/
  | ldReg (x y : RegIdx)
  /-- `OR Vx, Vy`, 8XY1 (R183). -/
  | orReg (x y : RegIdx)
  /-- `AND Vx, Vy`, 8XY2 (R184). -/
  | andReg (x y : RegIdx)
  /-- `XOR Vx, Vy`, 8XY3 (R185). -/
  | xorReg (x y : RegIdx)
  /-- `ADD Vx, Vy`, 8XY4 (R186). -/
  | addReg (x y : RegIdx)
  /-- `SUB Vx, Vy`, 8XY5 (R187). -/
  | subReg (x y : RegIdx)
  /-- `SHR Vx`, 8XY6 (R188): the `Y` field is in the word and ignored. -/
  | shr (x y : RegIdx)
  /-- `SUBN Vx, Vy`, 8XY7 (R189). -/
  | subnReg (x y : RegIdx)
  /-- `SHL Vx`, 8XYE (R190): the `Y` field is in the word and ignored. -/
  | shl (x y : RegIdx)
  /-- `SNE Vx, Vy`, 9XY0 (R166). -/
  | sneReg (x y : RegIdx)
  /-- `LD I, NNN`, ANNN (R210). -/
  | ldI (nnn : Addr12)
  /-- `JP V0, NNN`, BNNN (R167). -/
  | jpV0 (nnn : Addr12)
  /-- `RND Vx, NN`, CXNN (R191). -/
  | rnd (x : RegIdx) (nn : Byte)
  /-- `DRW Vx, Vy, N`, DXYN (R151). -/
  | drw (x y : RegIdx) (n : Nibble)
  /-- `SKP Vx`, EX9E (R230). -/
  | skp (x : RegIdx)
  /-- `SKNP Vx`, EXA1 (R231). -/
  | sknp (x : RegIdx)
  /-- `LD Vx, DT`, FX07 (R232). -/
  | ldVxDt (x : RegIdx)
  /-- `LD Vx, K`, FX0A (R233). -/
  | ldVxK (x : RegIdx)
  /-- `LD DT, Vx`, FX15 (R234). -/
  | ldDtVx (x : RegIdx)
  /-- `LD ST, Vx`, FX18 (R235). -/
  | ldStVx (x : RegIdx)
  /-- `ADD I, Vx`, FX1E (R211). -/
  | addI (x : RegIdx)
  /-- `LD F, Vx`, FX29 (R212). -/
  | ldF (x : RegIdx)
  /-- `LD B, Vx`, FX33 (R213). -/
  | ldB (x : RegIdx)
  /-- `LD [I], Vx`, FX55 (R214). -/
  | ldMemVx (x : RegIdx)
  /-- `LD Vx, [I]`, FX65 (R215). -/
  | ldVxMem (x : RegIdx)
  /-- `UNKNOWN`, `.word w`: any word no other variant's pattern matches (R100, R250). -/
  | unknown (w : Word)
  deriving DecidableEq, Repr

/-- The operation kind of a descriptor: one of 35 variants (R2, R95, R98). -/
inductive OpKind where
  | cls | ret | jp | call | seImm | sneImm | seReg | ldImm | addImm
  | ldReg | orReg | andReg | xorReg | addReg | subReg | shr | subnReg | shl
  | sneReg | ldI | jpV0 | rnd | drw | skp | sknp
  | ldVxDt | ldVxK | ldDtVx | ldStVx | addI | ldF | ldB | ldMemVx | ldVxMem
  | unknown
  deriving DecidableEq, Repr

/-- The kind of an instruction. -/
def Instr.kind : Instr → OpKind
  | .cls => .cls
  | .ret => .ret
  | .jp _ => .jp
  | .call _ => .call
  | .seImm _ _ => .seImm
  | .sneImm _ _ => .sneImm
  | .seReg _ _ => .seReg
  | .ldImm _ _ => .ldImm
  | .addImm _ _ => .addImm
  | .ldReg _ _ => .ldReg
  | .orReg _ _ => .orReg
  | .andReg _ _ => .andReg
  | .xorReg _ _ => .xorReg
  | .addReg _ _ => .addReg
  | .subReg _ _ => .subReg
  | .shr _ _ => .shr
  | .subnReg _ _ => .subnReg
  | .shl _ _ => .shl
  | .sneReg _ _ => .sneReg
  | .ldI _ => .ldI
  | .jpV0 _ => .jpV0
  | .rnd _ _ => .rnd
  | .drw _ _ _ => .drw
  | .skp _ => .skp
  | .sknp _ => .sknp
  | .ldVxDt _ => .ldVxDt
  | .ldVxK _ => .ldVxK
  | .ldDtVx _ => .ldDtVx
  | .ldStVx _ => .ldStVx
  | .addI _ => .addI
  | .ldF _ => .ldF
  | .ldB _ => .ldB
  | .ldMemVx _ => .ldMemVx
  | .ldVxMem _ => .ldVxMem
  | .unknown _ => .unknown

end Sys2Proof
end

