-- ==== Sys2Proof/Decode.lean ====
section
/-! DEFINITION. The encoding (30_encoding.md): the opcode map R98, the decoder R96, the encoder R107, and the byte order of
an instruction word R64. The decoder follows the spec's case analysis and the encoder the spec's match values; that the two
and the map agree is stated, not assumed. -/

namespace Sys2Proof

/-! ### The fields of a word (R11, R92) -/

/-- `fam = w[15:12]`. -/
def famOf (w : Word) : Nibble := w.extractLsb' 12 4
/-- `X = w[11:8]`. -/
def xOf (w : Word) : RegIdx := w.extractLsb' 8 4
/-- `Y = w[7:4]`. -/
def yOf (w : Word) : RegIdx := w.extractLsb' 4 4
/-- `N = w[3:0]`. -/
def nOf (w : Word) : Nibble := w.extractLsb' 0 4
/-- `NN = w[7:0]`. -/
def nnOf (w : Word) : Byte := w.extractLsb' 0 8
/-- `NNN = w[11:0]`. -/
def nnnOf (w : Word) : Addr12 := w.extractLsb' 0 12

/-! ### Byte order of the instruction word (R64; PRESUMED by the spec, D4, G3; log 7) -/

/-- `w = MEM[a] ++ MEM[a+1]`: the byte at the lower address is the high half. -/
def wordOfBytes (b0 b1 : Byte) : Word := (b0.setWidth 16 <<< 8) ||| b1.setWidth 16
/-- The byte stored at the lower address, `w[15:8]`. -/
def hiByte (w : Word) : Byte := w.extractLsb' 8 8
/-- The byte stored at the next address, `w[7:0]`. -/
def loByte (w : Word) : Byte := w.extractLsb' 0 8

/-! ### The opcode map -/

/-- A row of R98: a word `w` selects the row iff `w & mask == match`. -/
structure OpcodeRow where
  kind : OpKind
  pattern : Word
  mask : Word
  deriving DecidableEq, Repr

/-- R98, rows 1 to 9. -/
def opcodeRowsA : List OpcodeRow :=
  [⟨.cls, 0x00E0, 0xFFFF⟩, ⟨.ret, 0x00EE, 0xFFFF⟩, ⟨.jp, 0x1000, 0xF000⟩, ⟨.call, 0x2000, 0xF000⟩,
   ⟨.seImm, 0x3000, 0xF000⟩, ⟨.sneImm, 0x4000, 0xF000⟩, ⟨.seReg, 0x5000, 0xF00F⟩,
   ⟨.ldImm, 0x6000, 0xF000⟩, ⟨.addImm, 0x7000, 0xF000⟩]

/-- R98, rows 10 to 19 (the sub-op nibbles: log 10). -/
def opcodeRowsB : List OpcodeRow :=
  [⟨.ldReg, 0x8000, 0xF00F⟩, ⟨.orReg, 0x8001, 0xF00F⟩, ⟨.andReg, 0x8002, 0xF00F⟩,
   ⟨.xorReg, 0x8003, 0xF00F⟩, ⟨.addReg, 0x8004, 0xF00F⟩, ⟨.subReg, 0x8005, 0xF00F⟩,
   ⟨.shr, 0x8006, 0xF00F⟩, ⟨.subnReg, 0x8007, 0xF00F⟩, ⟨.shl, 0x800E, 0xF00F⟩,
   ⟨.sneReg, 0x9000, 0xF00F⟩]

/-- R98, rows 20 to 34. -/
def opcodeRowsC : List OpcodeRow :=
  [⟨.ldI, 0xA000, 0xF000⟩, ⟨.jpV0, 0xB000, 0xF000⟩, ⟨.rnd, 0xC000, 0xF000⟩, ⟨.drw, 0xD000, 0xF000⟩,
   ⟨.skp, 0xE09E, 0xF0FF⟩, ⟨.sknp, 0xE0A1, 0xF0FF⟩,
   ⟨.ldVxDt, 0xF007, 0xF0FF⟩, ⟨.ldVxK, 0xF00A, 0xF0FF⟩, ⟨.ldDtVx, 0xF015, 0xF0FF⟩,
   ⟨.ldStVx, 0xF018, 0xF0FF⟩, ⟨.addI, 0xF01E, 0xF0FF⟩, ⟨.ldF, 0xF029, 0xF0FF⟩,
   ⟨.ldB, 0xF033, 0xF0FF⟩, ⟨.ldMemVx, 0xF055, 0xF0FF⟩, ⟨.ldVxMem, 0xF065, 0xF0FF⟩]

/-- The 34 operations of R98. -/
def opcodeRows : List OpcodeRow := opcodeRowsA ++ opcodeRowsB ++ opcodeRowsC

/-- A word selects a row (R98). -/
def OpcodeRow.selects (r : OpcodeRow) (w : Word) : Bool := w &&& r.mask == r.pattern

/-- The UNKNOWN space (R100): every word no operation's pattern matches. -/
def isUnknownWord (w : Word) : Bool := opcodeRows.all fun r => !r.selects w

/-! ### The decoder -/

/-- Family 0x0: the whole word decides (R97; log 9). -/
def decodeFam0 (w : Word) : Instr :=
  if w = 0x00E0#16 then .cls else if w = 0x00EE#16 then .ret else .unknown w

/-- Family 0x8: the low nibble decides (R96, R97; the nibbles: log 10). -/
def decodeFam8 (w : Word) : Instr :=
  match nOf w with
  | 0x0#4 => .ldReg (xOf w) (yOf w)
  | 0x1#4 => .orReg (xOf w) (yOf w)
  | 0x2#4 => .andReg (xOf w) (yOf w)
  | 0x3#4 => .xorReg (xOf w) (yOf w)
  | 0x4#4 => .addReg (xOf w) (yOf w)
  | 0x5#4 => .subReg (xOf w) (yOf w)
  | 0x6#4 => .shr (xOf w) (yOf w)
  | 0x7#4 => .subnReg (xOf w) (yOf w)
  | 0xE#4 => .shl (xOf w) (yOf w)
  | _ => .unknown w

/-- Family 0xE: the low byte decides (R96, R97). -/
def decodeFamE (w : Word) : Instr :=
  match nnOf w with
  | 0x9E#8 => .skp (xOf w)
  | 0xA1#8 => .sknp (xOf w)
  | _ => .unknown w

/-- Family 0xF: the low byte decides (R96, R97). -/
def decodeFamF (w : Word) : Instr :=
  match nnOf w with
  | 0x07#8 => .ldVxDt (xOf w)
  | 0x0A#8 => .ldVxK (xOf w)
  | 0x15#8 => .ldDtVx (xOf w)
  | 0x18#8 => .ldStVx (xOf w)
  | 0x1E#8 => .addI (xOf w)
  | 0x29#8 => .ldF (xOf w)
  | 0x33#8 => .ldB (xOf w)
  | 0x55#8 => .ldMemVx (xOf w)
  | 0x65#8 => .ldVxMem (xOf w)
  | _ => .unknown w

/-- `decode(w)` of R96: a total function of the word alone (R94). Families 0x5 and 0x9 need a low nibble 0 (C2; log 9). -/
def decodeWord (w : Word) : Instr :=
  match famOf w with
  | 0x0#4 => decodeFam0 w
  | 0x1#4 => .jp (nnnOf w)
  | 0x2#4 => .call (nnnOf w)
  | 0x3#4 => .seImm (xOf w) (nnOf w)
  | 0x4#4 => .sneImm (xOf w) (nnOf w)
  | 0x5#4 => if nOf w = 0x0#4 then .seReg (xOf w) (yOf w) else .unknown w
  | 0x6#4 => .ldImm (xOf w) (nnOf w)
  | 0x7#4 => .addImm (xOf w) (nnOf w)
  | 0x8#4 => decodeFam8 w
  | 0x9#4 => if nOf w = 0x0#4 then .sneReg (xOf w) (yOf w) else .unknown w
  | 0xA#4 => .ldI (nnnOf w)
  | 0xB#4 => .jpV0 (nnnOf w)
  | 0xC#4 => .rnd (xOf w) (nnOf w)
  | 0xD#4 => .drw (xOf w) (yOf w) (nOf w)
  | 0xE#4 => decodeFamE w
  | _ => decodeFamF w

/-- Why a list of bytes holds no instruction: there is one reason, fewer than the two bytes of a word (R90; log 31). -/
inductive DecodeError where
  /-- Fewer than two bytes are left. The machine never raises it: its fetch reads two bytes or none (R124). Safe. -/
  | truncated
  deriving DecidableEq, Repr

/-- The instruction at the head of a list of bytes, and the bytes after it. -/
def decode : List Byte → Except DecodeError (Instr × List Byte)
  | b0 :: b1 :: rest => .ok (decodeWord (wordOfBytes b0 b1), rest)
  | _ => .error .truncated

/-! ### The encoder (R107) -/

/-- Format `A`: `match | NNN`. -/
def wordA (m : Word) (nnn : Addr12) : Word := m ||| nnn.setWidth 16
/-- Format `XI`: `match | (X << 8) | NN`. -/
def wordXI (m : Word) (x : RegIdx) (nn : Byte) : Word := m ||| (x.setWidth 16 <<< 8) ||| nn.setWidth 16
/-- Formats `XY` and `XYN`: `match | (X << 8) | (Y << 4) | N`. -/
def wordXYN (m : Word) (x y : RegIdx) (n : Nibble) : Word :=
  m ||| (x.setWidth 16 <<< 8) ||| (y.setWidth 16 <<< 4) ||| n.setWidth 16
/-- Format `XS`: `match | (X << 8)`. -/
def wordXS (m : Word) (x : RegIdx) : Word := m ||| (x.setWidth 16 <<< 8)

/-- The word of an instruction (R107, with the match values of R98). -/
def encodeWord : Instr → Word
  | .cls => 0x00E0
  | .ret => 0x00EE
  | .jp nnn => wordA 0x1000 nnn
  | .call nnn => wordA 0x2000 nnn
  | .seImm x nn => wordXI 0x3000 x nn
  | .sneImm x nn => wordXI 0x4000 x nn
  | .seReg x y => wordXYN 0x5000 x y 0
  | .ldImm x nn => wordXI 0x6000 x nn
  | .addImm x nn => wordXI 0x7000 x nn
  | .ldReg x y => wordXYN 0x8000 x y 0
  | .orReg x y => wordXYN 0x8001 x y 0
  | .andReg x y => wordXYN 0x8002 x y 0
  | .xorReg x y => wordXYN 0x8003 x y 0
  | .addReg x y => wordXYN 0x8004 x y 0
  | .subReg x y => wordXYN 0x8005 x y 0
  | .shr x y => wordXYN 0x8006 x y 0
  | .subnReg x y => wordXYN 0x8007 x y 0
  | .shl x y => wordXYN 0x800E x y 0
  | .sneReg x y => wordXYN 0x9000 x y 0
  | .ldI nnn => wordA 0xA000 nnn
  | .jpV0 nnn => wordA 0xB000 nnn
  | .rnd x nn => wordXI 0xC000 x nn
  | .drw x y n => wordXYN 0xD000 x y n
  | .skp x => wordXS 0xE09E x
  | .sknp x => wordXS 0xE0A1 x
  | .ldVxDt x => wordXS 0xF007 x
  | .ldVxK x => wordXS 0xF00A x
  | .ldDtVx x => wordXS 0xF015 x
  | .ldStVx x => wordXS 0xF018 x
  | .addI x => wordXS 0xF01E x
  | .ldF x => wordXS 0xF029 x
  | .ldB x => wordXS 0xF033 x
  | .ldMemVx x => wordXS 0xF055 x
  | .ldVxMem x => wordXS 0xF065 x
  | .unknown w => w

/-- The two bytes of an instruction in memory order (R107, R64). -/
def encode (i : Instr) : List Byte := [hiByte (encodeWord i), loByte (encodeWord i)]

/-- The instruction this decoder reads from the word numbered as spec/opcode_table.json numbers it: bit 0 is the least
significant bit of the one word, and every bit from `nbits` up is 0. The word is laid out as memory stores it. -/
def decodeTableWord (nbits w : Nat) : Option Instr :=
  let word := BitVec.ofNat 16 (w % 2 ^ nbits)
  match decode [hiByte word, loByte word] with
  | .ok (i, _) => some i
  | .error _ => none

end Sys2Proof
end

