-- ==== Sys2Proof/Config.lean ====
section
/-! DEFINITION. What is fixed for the machine (R39 of 10_state.md): the sizes the spec fixes, and the FREE VALUES, constants
with no body, so that nothing in Lean can know them. The parameters of R8 that a test could show wrong (MEM_SIZE,
FONT_BASE, FONT, STACK_DEPTH) and D13's FONT_INDEX_OOR stand in Machine/Params.lean. -/

namespace Sys2Proof.Config

/-- `DISP_W`, the columns of the display (R8, R32). -/
def dispWidth : Nat := 64

/-- `DISP_H`, the rows of the display (R8, R32). -/
def dispHeight : Nat := 32

/-- FREE VALUE: the `keys_held` argument of a step to which the host has presented none, for the sample numbered by the
argument (R42, U14; log 2). -/
opaque freeKeysHeld : Nat → BitVec 16

/-- FREE VALUE: the `rnd` argument of a step to which the host has presented none, for the sample numbered by the
argument (R43: any value on each execution, no relation between draws; log 2). -/
opaque freeRnd : Nat → Byte

end Sys2Proof.Config
end

