-- ==== Sys2Proof/Machine/Params.lean ====
section
/-! DEFINITION. The parameters of R8 of 00_scope.md, at the values the spec fixes for the hardware, and FONT_INDEX_OOR of
D13. They stand under
Machine/ so that a test that shows one of them wrong can have it mended. -/

namespace Sys2Proof.Config

/-- `MEM_SIZE`, the number of bytes of `MEM` (R8, R60, D1; DESIGN CHOICE of the spec, log 4). -/
def memSize : Nat := 4096

/-- `PROG_BASE`, the load address and reset `PC` (R8, R45: stated). -/
def progBase : Nat := 0x200

/-- `FONT_BASE`, the address of glyph 0 (R8, D2; DESIGN CHOICE of the spec, log 5). -/
def fontBase : Nat := 0x000

/-- `STACK_DEPTH`, the capacity of the call stack (R8, R28, D3; DEDUCED by the spec, log 6). -/
def stackDepth : Nat := 16

/-- Glyphs 0 to 7 of `FONT`, 5 bytes each, top row first (R66; PRESUMED, G5, log 23). -/
def fontLow : List Byte :=
  [0xF0, 0x90, 0x90, 0x90, 0xF0,  0x20, 0x60, 0x20, 0x20, 0x70,
   0xF0, 0x10, 0xF0, 0x80, 0xF0,  0xF0, 0x10, 0xF0, 0x10, 0xF0,
   0x90, 0x90, 0xF0, 0x10, 0x10,  0xF0, 0x80, 0xF0, 0x10, 0xF0,
   0xF0, 0x80, 0xF0, 0x90, 0xF0,  0xF0, 0x10, 0x20, 0x40, 0x40]

/-- Glyphs 8 to F of `FONT` (R66; PRESUMED, G5, log 23). -/
def fontHigh : List Byte :=
  [0xF0, 0x90, 0xF0, 0x90, 0xF0,  0xF0, 0x90, 0xF0, 0x10, 0xF0,
   0xF0, 0x90, 0xF0, 0x90, 0x90,  0xE0, 0x90, 0xE0, 0x90, 0xE0,
   0xF0, 0x80, 0x80, 0x80, 0xF0,  0xE0, 0x90, 0x90, 0x90, 0xE0,
   0xF0, 0x80, 0xF0, 0x80, 0xF0,  0xF0, 0x80, 0xF0, 0x80, 0x80]

/-- `FONT`, the 80 font bytes (R8, R66). -/
def font : List Byte := fontLow ++ fontHigh

/-- The two settings the spec gives its open parameter `FONT_INDEX_OOR` (D13, U1): what `LD F, Vx` does when `V[X]` is above
15. -/
inductive FontIndexOor where
  /-- The instruction is refused. -/
  | refuse
  /-- The formula of R212 is applied as it is for a digit. -/
  | formula
  deriving DecidableEq, Repr

/-- `FONT_INDEX_OOR`: the setting with an effect (D13, U1; DESIGN CHOICE of the model, log 16: the spec's default is the
other). -/
def fontIndexOor : FontIndexOor := .formula

end Sys2Proof.Config
end

