-- ==== Sys2Proof/Machine/State.lean ====
section
/-! DEFINITION. The state of the core (R20 to R38 of 10_state.md), the reasons a step or an operation can stop, and the
state after reset (R45). Everything is plain data. -/

namespace Sys2Proof.Machine

/-- `run_state` (R34). -/
inductive RunState where
  | running
  | awaitingKey
  | halted
  deriving DecidableEq, Repr

/-- A fatal condition, the three of R260. `halt_cause` is one of them or None (R37). -/
inductive FatalCause where
  | stackOverflow
  | stackUnderflow
  | memOutOfRange
  deriving DecidableEq, Repr

/-- What a rule raises: `raise Cause(info)` (R12, R260). `info` is the return address that could not be pushed, nothing, or
the lowest out-of-range address, as an unbounded integer (D9; log 12). -/
structure Fatal where
  cause : FatalCause
  info : Option Nat
  deriving DecidableEq, Repr

/-- An item of the effect set a step returns (R122). -/
inductive Effect where
  | displayDirtied
  | keyRequested
  | fatal (f : Fatal)
  deriving DecidableEq, Repr

/-- The MODEL's own record of the inputs of the coming step (R39, R42, R43; log 2): the arguments the host has presented,
`none` where it has presented none, and the number of inputs sampled so far, which numbers the free values. -/
structure Inputs where
  keysHeld : Option (BitVec 16)
  rnd : Option Byte
  samples : Nat
  deriving DecidableEq, Repr

/-- `MEM` (R33, R60): the cells that differ from what an unlisted address reads as (`Memory.unlisted` of Machine/Ops.lean),
addresses strictly rising (`Memory.wf`). -/
abbrev Memory := List Host.Cell

/-- The complete state of the core (R20), and below it the model's own fields. -/
structure State where
  /-- `V[0] … V[15]`; `V[15]` is the flag register (R21, R22). -/
  v : Vector Byte 16
  /-- `I` (R23). -/
  i : Word
  /-- `PC` (R24 to R26). -/
  pc : Word
  /-- `STACK[0] … STACK[SP-1]`, oldest first (R27; log 28). -/
  stack : List Word
  /-- `DT` (R31). -/
  dt : Byte
  /-- `ST` (R31). -/
  st : Byte
  /-- `DISP` (R32). -/
  disp : Frame
  /-- `MEM` (R33). -/
  mem : Memory
  /-- `run_state` (R34). -/
  runState : RunState
  /-- `wait_reg` (R35). -/
  waitReg : RegIdx
  /-- `key_latch` (R36). -/
  keyLatch : Option Nibble
  /-- `display_dirty` (R38). -/
  displayDirty : Bool
  /-- `halt_cause`, `none` for None (R37). -/
  haltCause : Option FatalCause
  /-- The model's own: the inputs of the coming step (log 2). -/
  inputs : Inputs
  /-- The model's own: the effect set of the last step (R122; log 3). -/
  effects : List Effect
  deriving DecidableEq, Repr

/-- What stops an operation. No STEP faults: the spec's fatal conditions are taken as R264 describes them. -/
inductive Fault where
  /-- Raised by `State.construct` (the host operation `reset`) when the program is longer than memory from 0x200 on: the
  construction failure of R301, after which no core state exists. Safe: the spec gives exactly this outcome. -/
  | programTooLarge (length : Nat)
  deriving DecidableEq, Repr

/-- What refuses an instruction. At the model's setting of the parameters no instruction is refused. -/
inductive Refusal where
  /-- Raised by an arm of `exec` whose instruction has no meaning yet. Safe: nothing follows from it. -/
  | notModelled (mnemonic : String)
  /-- Raised by `LD F, Vx` for `V[X]` above 15, the argument, at the setting `refuse` of FONT_INDEX_OOR only (R212, D13; the
  model is set to `formula`, log 16). Safe: the spec gives no meaning there. -/
  | fontIndexOutOfRange (value : Byte)
  deriving DecidableEq, Repr

/-- The state after reset with an empty program (R45, R300). Stated by the spec: `PC`, `run_state`, the empty stack, the
font (in `Memory.unlisted`). Decided by the spec, D15 (log 18): the zeros. The model's own: the last two (logs 2, 3). -/
def State.reset : State where
  v := Vector.replicate 16 0x00
  i := 0x0000
  pc := BitVec.ofNat 16 Config.progBase
  stack := []
  dt := 0x00
  st := 0x00
  disp := 0
  mem := []
  runState := .running
  waitReg := 0
  keyLatch := none
  displayDirty := false
  haltCause := none
  inputs := ⟨none, none, 0⟩
  effects := []

end Sys2Proof.Machine
end

