-- ==== Sys2Proof/Machine/Ops.lean ====
section
/-! DEFINITION. The named operations over registers, memory and the call stack, the sampling of inputs, the fetch, and the
entry of a fatal condition (R12 of 00_scope.md, R29, R30 of 10_state.md, R67 to R69 of 20_memory.md, R124, R126 of
40_step_cycle.md, R264 of 60_exceptions.md). -/

namespace Sys2Proof.Machine

/-! ### Registers -/

/-- `V[r]` (R21). -/
def State.vreg (s : State) (r : RegIdx) : Byte := s.v[r.toNat]'r.isLt

/-- `V[r] <- b` (R21: no register is hardwired). -/
def State.setV (s : State) (r : RegIdx) (b : Byte) : State := { s with v := s.v.set r.toNat b r.isLt }

/-- `I <- w` (R23). -/
def State.setI (s : State) (w : Word) : State := { s with i := w }

/-- `PC <- w` (R24). -/
def State.setPc (s : State) (w : Word) : State := { s with pc := w }

/-- `DT <- b` (R31). -/
def State.setDt (s : State) (b : Byte) : State := { s with dt := b }

/-- `ST <- b` (R31). -/
def State.setSt (s : State) (b : Byte) : State := { s with st := b }

/-- `DISP <- d` and `display_dirty <- 1`: every writer of the display marks it dirty (R32, R38). -/
def State.setDisp (s : State) (d : Frame) : State := { s with disp := d, displayDirty := true }

/-- `MEM <- m` (R33). -/
def State.setMem (s : State) (m : Memory) : State := { s with mem := m }

/-- `STACK <- l`, and with it `SP` (R27, R28). -/
def State.setStack (s : State) (l : List Word) : State := { s with stack := l }

/-- `SP`, the number of valid stack entries (R28; log 28). -/
def State.sp (s : State) : Nat := s.stack.length

/-- `PC <- (PC + 2) mod 65536` (R25, D10; log 13): the advance of the fetch, and of a skip that is taken. -/
def State.advancePc (s : State) : State := s.setPc (s.pc + 2)

/-- The two writes of a flag-writing ALU instruction: the result to `V[x]`, then the flag to `V[0xF]`, last (R193, D8;
log 11). -/
def State.writeResultFlag (s : State) (x : RegIdx) (result flag : Byte) : State := (s.setV x result).setV 0xF#4 flag

/-- `V[k] <- b0`, `V[k+1] <- b1`, … in ascending order (R215). -/
def State.loadRegs (s : State) (k : RegIdx) : List Byte → State
  | [] => s
  | b :: bs => (s.setV k b).loadRegs (k + 1) bs

/-! ### Effects and the fatal entry -/

/-- `emit e` (R12, R122). -/
def State.emit (s : State) (e : Effect) : State := { s with effects := s.effects ++ [e] }

/-- A step starts with an empty effect set (R122; log 3). -/
def State.clearEffects (s : State) : State := { s with effects := [] }

/-- TAKING AN EXCEPTION: the fatal entry of R264 (D9; log 12). It is applied to the state before the faulting rule's writes,
which are thereby discarded: the state before the step if the fetch faulted, after the fetch if the execute phase did.
There is no handler and no return (R265, R267): only the operation `reset` leaves Halted. -/
def State.raise (s : State) (f : Fatal) : State :=
  { s with runState := .halted, haltCause := some f.cause, effects := s.effects ++ [.fatal f] }

/-- A rule that may raise ends in its own state, or in the fatal entry taken from the state it began in (R125). -/
def orRaise (s : State) (r : Except Fatal State) : Host.Outcome State Fault Refusal :=
  match r with
  | .ok t => .next t
  | .error f => .next (s.raise f)

/-! ### Memory -/

/-- What an address reads as that no cell lists: the reset content, the font from FONT_BASE on (R66) and 0x00 everywhere
else (R45, R62, D15; log 19). -/
def Memory.unlisted (a : Nat) : Byte :=
  if Config.fontBase ≤ a then Config.font.getD (a - Config.fontBase) 0x00 else 0x00

/-- The canonical form: addresses strictly rising and inside `MEM` (R60, R67), no cell equal to what its address reads as
unlisted. -/
abbrev Memory.wf (m : Memory) : Prop :=
  m.Pairwise (fun c d => c.1 < d.1) ∧ ∀ c ∈ m, c.1 < Config.memSize ∧ c.2 ≠ Memory.unlisted c.1

/-- `MEM[a]`. -/
def Memory.read (m : Memory) (a : Nat) : Byte :=
  match m with
  | [] => Memory.unlisted a
  | (k, b) :: rest => if k = a then b else Memory.read rest a

/-- `MEM[a] <- b`, keeping the canonical form. -/
def Memory.write (m : Memory) (a : Nat) (b : Byte) : Memory :=
  match m with
  | [] => if b = Memory.unlisted a then [] else [(a, b)]
  | (k, c) :: rest =>
    if a < k then (if b = Memory.unlisted a then (k, c) :: rest else (a, b) :: (k, c) :: rest)
    else if a = k then (if b = Memory.unlisted a then rest else (a, b) :: rest)
    else (k, c) :: Memory.write rest a b

/-- `MEM[a+k] <- bytes[k]` in ascending order. -/
def Memory.writeAll (m : Memory) (a : Nat) : List Byte → Memory
  | [] => m
  | b :: bs => (Memory.write m a b).writeAll (a + 1) bs

/-- What an access out of range raises: the lowest out-of-range address it would touch (R68, R69, R260; log 12). -/
def memFatal (a : Nat) : Fatal := ⟨.memOutOfRange, some (max a Config.memSize)⟩

/-- An access of `n ≥ 1` bytes at `a` is in range iff `a + n - 1 < MEM_SIZE`, in unbounded integers (R67, D10; log 13). -/
def inRange (a n : Nat) : Bool := a + n - 1 < Config.memSize

/-- `MemRead(addr, n)` (R68): zero bytes check nothing (C12). -/
def memRead (m : Memory) (a n : Nat) : Except Fatal (List Byte) :=
  if n = 0 then .ok []
  else if inRange a n then .ok ((List.range n).map fun k => m.read (a + k))
  else .error (memFatal a)

/-- `MemWrite(addr, n, bytes)` with `n` the number of bytes (R69): all-or-nothing (D9; log 12). -/
def memWrite (m : Memory) (a : Nat) (bytes : List Byte) : Except Fatal Memory :=
  if inRange a bytes.length then .ok (m.writeAll a bytes) else .error (memFatal a)

/-! ### The call stack -/

/-- `push(v)` (R29). -/
def State.push (s : State) (w : Word) : Except Fatal State :=
  if s.sp = Config.stackDepth then .error ⟨.stackOverflow, some w.toNat⟩
  else .ok (s.setStack (s.stack ++ [w]))

/-- `pop()` (R30): the most recently pushed value, and the state without it. -/
def State.pop (s : State) : Except Fatal (Word × State) :=
  match s.stack.getLast? with
  | some w => .ok (w, s.setStack s.stack.dropLast)
  | none => .error ⟨.stackUnderflow, none⟩

/-! ### Inputs (log 2) -/

/-- The value of `keys_held` in this step (R42): what the host presented, else a free value. -/
def State.keysHeld (s : State) : BitVec 16 := s.inputs.keysHeld.getD (Config.freeKeysHeld s.inputs.samples)

/-- The value of `rnd` in this step (R43): what the host presented, else a free value. -/
def State.rnd (s : State) : Byte := s.inputs.rnd.getD (Config.freeRnd s.inputs.samples)

/-- `keys_held` has been sampled: the next sample is a new input. -/
def State.sampledKeys (s : State) : State :=
  { s with inputs := { s.inputs with keysHeld := none, samples := s.inputs.samples + 1 } }

/-- `rnd` has been sampled: the next sample is a new draw. -/
def State.sampledRnd (s : State) : State :=
  { s with inputs := { s.inputs with rnd := none, samples := s.inputs.samples + 1 } }

/-! ### The fetch and the wait -/

/-- The fetch (R124): the word at `PC`, high half first (R64), and the state with `PC` advanced. If the two bytes are not
both in `MEM` it raises, and `PC` stays as it is. -/
def State.fetch (s : State) : Except Fatal (Word × State) :=
  if inRange s.pc.toNat 2 then
    .ok (wordOfBytes (s.mem.read s.pc.toNat) (s.mem.read (s.pc.toNat + 1)), s.advancePc)
  else .error (memFatal s.pc.toNat)

/-- The step in AwaitingKey (R126): the reported key goes to `V[wait_reg]`, the latch is consumed (D11; log 14) and the
machine runs again; with no report nothing happens. -/
def State.awaitKey (s : State) : State :=
  match s.keyLatch with
  | none => s
  | some k => { s.setV s.waitReg (k.setWidth 8) with keyLatch := none, runState := .running }

end Sys2Proof.Machine
end

