-- ==== Sys2Proof/Machine/Operands.lean ====
section
/-! DEFINITION. The operand forms (R93 of 30_encoding.md, and the rules of files 41 to 45): a register, an immediate byte and
a row count are used as they are; the forms below compute something. -/

namespace Sys2Proof.Machine

/-- `NNN`, zero-extended to 16 bits (R93). -/
def addrOperand (nnn : Addr12) : Word := nnn.setWidth 16

/-- A register value, zero-extended to 16 bits (R167, R211). -/
def wideOperand (b : Byte) : Word := b.setWidth 16

/-- The effective address of the index-relative forms, `I + 0`, in unbounded integers (R67, 44_index_memory.md). -/
def State.indexAddr (s : State) : Nat := s.i.toNat

/-- The register range `V[0] … V[X]`, in ascending order (R214). -/
def State.regRange (s : State) (x : RegIdx) : List Byte := s.v.toList.take (x.toNat + 1)

/-- The key a register value names: none above 15 (R230, D12; log 15). -/
def keyOperand (b : Byte) : Option Nibble := if b.toNat ≤ 15 then some (b.setWidth 4) else none

/-- `pressed` of R230 and R231: the register value names a key, and `keys_held` says it is held. -/
def pressed (keys : BitVec 16) (b : Byte) : Bool :=
  match keyOperand b with
  | some k => keys.getLsbD k.toNat
  | none => false

/-- The decimal digits of a byte, hundreds, tens, ones, one digit a byte (R213). -/
def bcdDigits (b : Byte) : List Byte :=
  [BitVec.ofNat 8 (b.toNat / 100), BitVec.ofNat 8 (b.toNat / 10 % 10), BitVec.ofNat 8 (b.toNat % 10)]

/-- The formula of R212, `FONT_BASE + 5 * V[X]`: the address of the glyph of a digit 0 … 15. -/
def fontAddress (b : Byte) : Word := BitVec.ofNat 16 (Config.fontBase + 5 * b.toNat)

/-- The register values `LD F, Vx` takes: the digits 0 … 15 that R212 requires, and every value at the setting `formula` of
FONT_INDEX_OOR (D13; log 16). -/
def fontIndexTaken (oor : Config.FontIndexOor) (b : Byte) : Bool :=
  match oor with
  | .formula => true
  | .refuse => b.toNat ≤ 15

end Sys2Proof.Machine
end

