-- ==== Sys2Proof/Machine/Flags.lean ====
section
/-! DEFINITION. The values the flag register receives (R192 of 43_alu.md): 0x00 or 0x01. -/

namespace Sys2Proof.Machine

/-- A condition as a flag value (R22). -/
def flagOf (c : Bool) : Byte := if c then 0x01 else 0x00

/-- The carry of `a + b` (R186): 1 iff the unsigned sum exceeds 255. -/
def carryFlag (a b : Byte) : Byte := flagOf (a.toNat + b.toNat > 255)

/-- The not-borrow of `a - b` (R187, R189): 0 iff `b > a`. -/
def notBorrowFlag (a b : Byte) : Byte := flagOf !(b.toNat > a.toNat)

/-- The bit a right shift by one moves out (R188): bit 0. -/
def shrFlag (a : Byte) : Byte := flagOf (a.getLsbD 0)

/-- The bit a left shift by one moves out (R190): bit 7. -/
def shlFlag (a : Byte) : Byte := flagOf (a.getLsbD 7)

end Sys2Proof.Machine
end

