-- ==== Sys2Proof/Machine/Alu.lean ====
section
/-! DEFINITION. Register and ALU instructions (43_alu.md). Operands are read before anything is written (R13). -/

namespace Sys2Proof.Machine

/-- `LD Vx, NN` (R180). -/
def execLdImm (x : RegIdx) (nn : Byte) (s : State) : Host.Outcome State Fault Refusal :=
  .next (s.setV x nn)

/-- `ADD Vx, NN` (R181): no flag. -/
def execAddImm (x : RegIdx) (nn : Byte) (s : State) : Host.Outcome State Fault Refusal :=
  .next (s.setV x (s.vreg x + nn))

/-- `LD Vx, Vy` (R182). -/
def execLdReg (x y : RegIdx) (s : State) : Host.Outcome State Fault Refusal :=
  .next (s.setV x (s.vreg y))

/-- `OR Vx, Vy` (R183): no flag. -/
def execOrReg (x y : RegIdx) (s : State) : Host.Outcome State Fault Refusal :=
  .next (s.setV x (s.vreg x ||| s.vreg y))

/-- `AND Vx, Vy` (R184): no flag. -/
def execAndReg (x y : RegIdx) (s : State) : Host.Outcome State Fault Refusal :=
  .next (s.setV x (s.vreg x &&& s.vreg y))

/-- `XOR Vx, Vy` (R185): no flag. -/
def execXorReg (x y : RegIdx) (s : State) : Host.Outcome State Fault Refusal :=
  .next (s.setV x (s.vreg x ^^^ s.vreg y))

/-- `ADD Vx, Vy` (R186): the carry to the flag register. -/
def execAddReg (x y : RegIdx) (s : State) : Host.Outcome State Fault Refusal :=
  .next (s.writeResultFlag x (s.vreg x + s.vreg y) (carryFlag (s.vreg x) (s.vreg y)))

/-- `SUB Vx, Vy` (R187): not-borrow of X - Y to the flag register. -/
def execSubReg (x y : RegIdx) (s : State) : Host.Outcome State Fault Refusal :=
  .next (s.writeResultFlag x (s.vreg x - s.vreg y) (notBorrowFlag (s.vreg x) (s.vreg y)))

/-- `SHR Vx` (R188): `y` is ignored. -/
def execShr (x _y : RegIdx) (s : State) : Host.Outcome State Fault Refusal :=
  .next (s.writeResultFlag x (s.vreg x >>> 1) (shrFlag (s.vreg x)))

/-- `SUBN Vx, Vy` (R189): not-borrow of Y - X to the flag register. -/
def execSubnReg (x y : RegIdx) (s : State) : Host.Outcome State Fault Refusal :=
  .next (s.writeResultFlag x (s.vreg y - s.vreg x) (notBorrowFlag (s.vreg y) (s.vreg x)))

/-- `SHL Vx` (R190): `y` is ignored. -/
def execShl (x _y : RegIdx) (s : State) : Host.Outcome State Fault Refusal :=
  .next (s.writeResultFlag x (s.vreg x <<< 1) (shlFlag (s.vreg x)))

/-- `RND Vx, NN` (R191): the input `rnd`, sampled here (R43; log 2), masked with NN. -/
def execRnd (x : RegIdx) (nn : Byte) (s : State) : Host.Outcome State Fault Refusal :=
  .next (s.sampledRnd.setV x (s.rnd &&& nn))

end Sys2Proof.Machine
end

