-- ==== Sys2Proof/Machine/Control.lean ====
section
/-! DEFINITION. Control transfer (42_control_flow.md). `PC` is the value after the fetch's advance (R125). -/

namespace Sys2Proof.Machine

/-- The skip: `PC` advances by an additional 2 if the condition holds (R163, R25). -/
def State.skipIf (s : State) (c : Bool) : State := if c then s.advancePc else s

/-- `RET` (R160). -/
def execRet (s : State) : Host.Outcome State Fault Refusal :=
  orRaise s <| s.pop.map fun r => r.2.setPc r.1

/-- `JP NNN` (R161). -/
def execJp (nnn : Addr12) (s : State) : Host.Outcome State Fault Refusal :=
  .next (s.setPc (addrOperand nnn))

/-- `CALL NNN` (R162): the advanced `PC` is the return address (C7). -/
def execCall (nnn : Addr12) (s : State) : Host.Outcome State Fault Refusal :=
  orRaise s <| (s.push s.pc).map fun t => t.setPc (addrOperand nnn)

/-- `SE Vx, NN` (R163). -/
def execSeImm (x : RegIdx) (nn : Byte) (s : State) : Host.Outcome State Fault Refusal :=
  .next (s.skipIf (s.vreg x == nn))

/-- `SNE Vx, NN` (R164). -/
def execSneImm (x : RegIdx) (nn : Byte) (s : State) : Host.Outcome State Fault Refusal :=
  .next (s.skipIf (s.vreg x != nn))

/-- `SE Vx, Vy` (R165). -/
def execSeReg (x y : RegIdx) (s : State) : Host.Outcome State Fault Refusal :=
  .next (s.skipIf (s.vreg x == s.vreg y))

/-- `SNE Vx, Vy` (R166). -/
def execSneReg (x y : RegIdx) (s : State) : Host.Outcome State Fault Refusal :=
  .next (s.skipIf (s.vreg x != s.vreg y))

/-- `JP V0, NNN` (R167): always register 0; the sum is not reduced to 12 bits. -/
def execJpV0 (nnn : Addr12) (s : State) : Host.Outcome State Fault Refusal :=
  .next (s.setPc (wideOperand (s.vreg 0) + addrOperand nnn))

end Sys2Proof.Machine
end

