-- ==== Sys2Proof/Machine/Display.lean ====
section
/-! DEFINITION. The display instructions (41_display.md). -/

namespace Sys2Proof.Machine

/-- The index of pixel (x, y), row-major (R32). -/
def pixelIndex (x y : Nat) : Nat := y * Config.dispWidth + x

/-- `DISP[y][x]` (R12, R32). -/
def pixel (d : Frame) (x y : Nat) : Bool := d.getLsbD (pixelIndex x y)

/-- What a draw accumulates: the display so far, and whether a set pixel was cleared. -/
structure Canvas where
  disp : Frame
  collision : Bool
  deriving DecidableEq, Repr

/-- One set sprite bit at column `x`, row `y` (R151): it flips the pixel and collides if the pixel was set; outside the
display it is dropped. -/
def Canvas.plot (c : Canvas) (x y : Nat) : Canvas :=
  if x < Config.dispWidth ∧ y < Config.dispHeight then
    ⟨c.disp ^^^ BitVec.twoPow 2048 (pixelIndex x y), c.collision || pixel c.disp x y⟩
  else c

/-- One row of a sprite (R151): bit 7 is the leftmost pixel, at column `x0` (D18; log 22). -/
def Canvas.drawRow (c : Canvas) (x0 y : Nat) (row : Byte) : Canvas :=
  (List.range 8).foldl (fun c k => if row.getLsbD (7 - k) then c.plot (x0 + k) y else c) c

/-- The rows of a sprite, from row `y` downwards (R151). -/
def Canvas.drawRows (c : Canvas) (x0 y : Nat) : List Byte → Canvas
  | [] => c
  | row :: rest => (c.drawRow x0 y row).drawRows x0 (y + 1) rest

/-- `CLS` (R150): every pixel 0, the display marked dirty. -/
def execCls (s : State) : Host.Outcome State Fault Refusal :=
  .next ((s.setDisp 0).emit .displayDirtied)

/-- `DRW Vx, Vy, N` (R151): the origin is reduced mod 64 and mod 32; all N bytes are read, clipped or not (D25; log 27);
the collision flag is written always. -/
def execDrw (x y : RegIdx) (n : Nibble) (s : State) : Host.Outcome State Fault Refusal :=
  orRaise s <| (memRead s.mem s.indexAddr n.toNat).map fun rows =>
    let c := (Canvas.mk s.disp false).drawRows ((s.vreg x).toNat % Config.dispWidth)
      ((s.vreg y).toNat % Config.dispHeight) rows
    ((s.setDisp c.disp).setV 0xF#4 (flagOf c.collision)).emit .displayDirtied

end Sys2Proof.Machine
end

