-- ==== Sys2Proof/Machine/IndexMem.lean ====
section
/-! DEFINITION. Index-register and memory instructions (44_index_memory.md). None but `LD I`, `ADD I` and `LD F` changes `I`
(R216, D14; log 17). -/

namespace Sys2Proof.Machine

/-- `LD I, NNN` (R210). -/
def execLdI (nnn : Addr12) (s : State) : Host.Outcome State Fault Refusal :=
  .next (s.setI (addrOperand nnn))

/-- `ADD I, Vx` (R211): modulo 65536, no flag. -/
def execAddI (x : RegIdx) (s : State) : Host.Outcome State Fault Refusal :=
  .next (s.setI (s.i + wideOperand (s.vreg x)))

/-- `LD F, Vx` at a setting of FONT_INDEX_OOR (R212, D13): the glyph's address goes to `I`; a value the setting does not
take is refused. -/
def State.loadFontAddress (s : State) (oor : Config.FontIndexOor) (x : RegIdx) : Host.Outcome State Fault Refusal :=
  if fontIndexTaken oor (s.vreg x) then .next (s.setI (fontAddress (s.vreg x)))
  else .refused (.fontIndexOutOfRange (s.vreg x))

/-- `LD F, Vx` (R212), at the model's setting of FONT_INDEX_OOR (log 16). -/
def execLdF (x : RegIdx) (s : State) : Host.Outcome State Fault Refusal :=
  s.loadFontAddress Config.fontIndexOor x

/-- `LD B, Vx` (R213). -/
def execLdB (x : RegIdx) (s : State) : Host.Outcome State Fault Refusal :=
  orRaise s <| (memWrite s.mem s.indexAddr (bcdDigits (s.vreg x))).map s.setMem

/-- `LD [I], Vx` (R214). -/
def execLdMemVx (x : RegIdx) (s : State) : Host.Outcome State Fault Refusal :=
  orRaise s <| (memWrite s.mem s.indexAddr (s.regRange x)).map s.setMem

/-- `LD Vx, [I]` (R215). -/
def execLdVxMem (x : RegIdx) (s : State) : Host.Outcome State Fault Refusal :=
  orRaise s <| (memRead s.mem s.indexAddr (x.toNat + 1)).map (s.loadRegs 0)

end Sys2Proof.Machine
end

