-- ==== Sys2Proof/Machine/Keypad.lean ====
section
/-! DEFINITION. Keypad and timer instructions (45_keypad_timers.md). -/

namespace Sys2Proof.Machine

/-- `SKP Vx` (R230): `keys_held` is sampled here (R42; log 2). -/
def execSkp (x : RegIdx) (s : State) : Host.Outcome State Fault Refusal :=
  .next (s.sampledKeys.skipIf (pressed s.keysHeld (s.vreg x)))

/-- `SKNP Vx` (R231): `keys_held` is sampled here (R42; log 2). -/
def execSknp (x : RegIdx) (s : State) : Host.Outcome State Fault Refusal :=
  .next (s.sampledKeys.skipIf !(pressed s.keysHeld (s.vreg x)))

/-- `LD Vx, DT` (R232). -/
def execLdVxDt (x : RegIdx) (s : State) : Host.Outcome State Fault Refusal :=
  .next (s.setV x s.dt)

/-- Entering the wait (R233, R34): the destination is noted, an earlier report is discarded (D11; log 14). -/
def State.beginWait (s : State) (x : RegIdx) : State :=
  { s with runState := .awaitingKey, waitReg := x, keyLatch := none }

/-- `LD Vx, K` (R233): the register is written by the later step that finds a key (`State.awaitKey`). -/
def execLdVxK (x : RegIdx) (s : State) : Host.Outcome State Fault Refusal :=
  .next ((s.beginWait x).emit .keyRequested)

/-- `LD DT, Vx` (R234). -/
def execLdDtVx (x : RegIdx) (s : State) : Host.Outcome State Fault Refusal :=
  .next (s.setDt (s.vreg x))

/-- `LD ST, Vx` (R235). -/
def execLdStVx (x : RegIdx) (s : State) : Host.Outcome State Fault Refusal :=
  .next (s.setSt (s.vreg x))

end Sys2Proof.Machine
end

