-- ==== Sys2Proof/Machine/Unknown.lean ====
section
/-! DEFINITION. The UNKNOWN variant (46_unknown.md). -/

namespace Sys2Proof.Machine

/-- `UNKNOWN` (R250): the execute phase changes nothing; the fetch's advance of `PC` stands (C8). -/
def execUnknown (_w : Word) (s : State) : Host.Outcome State Fault Refusal :=
  .next s

end Sys2Proof.Machine
end

