-- ==== Sys2Proof/Machine/Step.lean ====
section
/-! DEFINITION. One host operation `step` (R123 of 40_step_cycle.md): at most one instruction fetched, decoded and executed,
with the inputs that State presents (log 2). The other host operations are in Machine/HostOps.lean; none of them happens
inside a step (R121; log 1). -/

namespace Sys2Proof.Machine

/-- `step` (R123): nothing in Halted (R127), the poll of the key latch in AwaitingKey (R126), else fetch (R124), decode
(R96) and execute (R125). The effect set is the one of this step (R122). -/
def step (s : State) : Host.Outcome State Fault Refusal :=
  match s.runState with
  | .halted => .next s.clearEffects
  | .awaitingKey => .next s.clearEffects.awaitKey
  | .running =>
    match s.clearEffects.fetch with
    | .error f => .next (s.clearEffects.raise f)
    | .ok (w, t) => exec (decodeWord w) t

/-- `s` about to fetch: Running, and `PC` where two bytes can be read; a `PC` from which nothing can be fetched is set to
0x200 (log 31). -/
def State.readyToFetch (s : State) : State :=
  { s with
    runState := .running
    haltCause := none
    pc := if inRange s.pc.toNat 2 then s.pc else BitVec.ofNat 16 Config.progBase }

/-- `s` with the instruction word `w` (its bits from `nbits` up zero) stored where `step` fetches its next instruction, high
byte first (R64). -/
def State.withFetchWord (s : State) (nbits w : Nat) : State :=
  let word := BitVec.ofNat 16 (w % 2 ^ nbits)
  let t := s.readyToFetch
  t.setMem (t.mem.writeAll t.pc.toNat [hiByte word, loByte word])

end Sys2Proof.Machine
end

