-- ==== Sys2Proof/Machine/HostOps.lean ====
section
/-! DEFINITION. The host interface: the five operations of R120 of 40_step_cycle.md, and the outputs of R40 of
10_state.md. Each operation is atomic and the host's order of them is free (R121): a run is a list of operations. -/

namespace Sys2Proof.Machine

/-! ### The operations -/

/-- `tick()` (R270), the same in every run state (R271, D17; log 21). -/
def State.tick (s : State) : State :=
  { s with dt := if s.dt = 0 then 0 else s.dt - 1, st := if s.st = 0 then 0 else s.st - 1 }

/-- `report_key(k)` (R130): the latest report is kept (D11; log 14). -/
def State.reportKey (s : State) (k : Nibble) : State := { s with keyLatch := some k }

/-- `clear_dirty()` (R131, D16; log 20). -/
def State.clearDirty (s : State) : State := { s with displayDirty := false }

/-- The most bytes a program may have: from PROG_BASE to the end of `MEM` (R301). -/
def maxProgramLength : Nat := Config.memSize - Config.progBase

/-- `reset(program)` (R300): the state of R45, with the program at 0x200; the construction failure of R301 if it does not
fit. The count of samples goes on, so that draws after a reset are new ones (log 30). -/
def State.construct (program : List Byte) (samples : Nat) : Host.Outcome State Fault Refusal :=
  if program.length ≤ maxProgramLength then
    .next { State.reset with
      mem := State.reset.mem.writeAll Config.progBase program
      inputs := { State.reset.inputs with samples := samples } }
  else .fault (.programTooLarge program.length)

/-- The host presents the arguments of a step (R120). -/
def State.present (s : State) (keys : BitVec 16) (rnd : Byte) : State :=
  { s with inputs := { s.inputs with keysHeld := some keys, rnd := some rnd } }

/-- The arguments of a step are gone when it has ended (R39: the core does not store them). -/
def State.dropInputs (s : State) : State :=
  { s with inputs := { s.inputs with keysHeld := none, rnd := none } }

/-- `step(keys_held, rnd)` (R123): `step` with these arguments. -/
def stepWith (keys : BitVec 16) (rnd : Byte) (s : State) : Host.Outcome State Fault Refusal :=
  match step (s.present keys rnd) with
  | .next t => .next t.dropInputs
  | .fault r => .fault r
  | .refused r => .refused r

/-- A host operation with its arguments (R120). -/
inductive HostOp where
  | reset (program : List Byte)
  | step (keysHeld : BitVec 16) (rnd : Byte)
  | tick
  | reportKey (k : Nibble)
  | clearDirty
  deriving DecidableEq, Repr

/-- What one host operation does (R120). -/
def applyOp (o : HostOp) (s : State) : Host.Outcome State Fault Refusal :=
  match o with
  | .reset program => State.construct program s.inputs.samples
  | .step keys rnd => stepWith keys rnd s
  | .tick => .next s.tick
  | .reportKey k => .next (s.reportKey k)
  | .clearDirty => .next s.clearDirty

/-- What a sequence of host operations does, in the host's order (R121); it ends at the first that does not answer a next
state. -/
def runOps (ops : List HostOp) (s : State) : Host.Outcome State Fault Refusal :=
  match ops with
  | [] => .next s
  | o :: rest =>
    match applyOp o s with
    | .next t => runOps rest t
    | .fault r => .fault r
    | .refused r => .refused r

/-! ### The outputs (R40) -/

/-- `needs_key`. -/
def State.needsKey (s : State) : Bool := s.runState == .awaitingKey

/-- `sound_active`: the level ST ≠ 0. -/
def State.soundActive (s : State) : Bool := s.st != 0

/-- `halted`. -/
def State.isHalted (s : State) : Bool := s.runState == .halted

/-- The code of a halt cause (R37, D9; log 12). -/
def FatalCause.code : FatalCause → BitVec 2
  | .stackOverflow => 1
  | .stackUnderflow => 2
  | .memOutOfRange => 3

/-- `halt_cause` as the two-bit output of R40: 0 for None. -/
def State.haltCode (s : State) : BitVec 2 :=
  match s.haltCause with
  | none => 0
  | some c => c.code

/-- The level outputs of R40, readable between any two operations. -/
structure Outputs where
  display : Frame
  displayDirty : Bool
  needsKey : Bool
  soundActive : Bool
  halted : Bool
  haltCause : BitVec 2
  deriving DecidableEq, Repr

/-- The outputs of a state. -/
def State.outputs (s : State) : Outputs :=
  ⟨s.disp, s.displayDirty, s.needsKey, s.soundActive, s.isHalted, s.haltCode⟩

end Sys2Proof.Machine
end

