-- ==== Sys2Proof/Safety.lean ====
section
/-! DEFINITION. What counts as a good state and a safe run, in the terms the statements use (R46 of 10_state.md). -/

namespace Sys2Proof.Machine

/-- The invariant of R46 as a state predicate: (a) the stack depth is bounded, (b) `halt_cause` is None exactly outside
Halted, (e) memory lists only addresses of `MEM`, in its canonical form. (d) holds by the widths; (c) and (f) are about
operations and are stated as such. -/
structure State.Inv (s : State) : Prop where
  depth : s.sp ≤ Config.stackDepth
  cause : s.haltCause = none ↔ s.runState ≠ .halted
  memory : s.mem.wf

/-- A set bit of a sprite with its top left corner at column `x0`, row `y0` lies on pixel (x, y): bit 7 of a row is its
leftmost pixel (R151; log 22). -/
def spriteCovers (x0 y0 : Nat) (rows : List Byte) (x y : Nat) : Bool :=
  decide (x0 ≤ x ∧ x < x0 + 8 ∧ y0 ≤ y) && (rows.getD (y - y0) 0).getLsbD (7 - (x - x0))

/-- The registers an instruction may write, as R22 and R44 list them: its destination, the flag register for the six
flag-writing instructions, the range of a load. -/
def writesReg (i : Instr) (r : RegIdx) : Bool :=
  match i with
  | .ldImm x _ | .addImm x _ | .ldReg x _ | .orReg x _ | .andReg x _ | .xorReg x _ | .rnd x _ | .ldVxDt x => r == x
  | .addReg x _ | .subReg x _ | .shr x _ | .subnReg x _ | .shl x _ => r == x || r == 0xF#4
  | .drw _ _ _ => r == 0xF#4
  | .ldVxMem x => r.toNat ≤ x.toNat
  | .cls | .ret | .jp _ | .call _ | .seImm _ _ | .sneImm _ _ | .seReg _ _ | .sneReg _ _ | .ldI _ | .jpV0 _ => false
  | .skp _ | .sknp _ | .ldVxK _ | .ldDtVx _ | .ldStVx _ | .addI _ | .ldF _ | .ldB _ | .ldMemVx _ | .unknown _ => false

/-- A safe state: no fatal condition has arisen (R132: Halted is never a successful end). -/
def State.Safe (s : State) : Prop := s.runState ≠ .halted

/-- The states a host can bring the core to: by operations, in any order, from the reset of some program (R120, R121). -/
def Reachable (s : State) : Prop :=
  ∃ program ops t, State.construct program 0 = .next t ∧ runOps ops t = .next s

end Sys2Proof.Machine
end

