-- ==== Sys2Proof/WellFormed.lean ====
section
/-! DEFINITION. Which terms of `Instr` are instructions. Every register index, immediate and address of its width is legal
(R93), so the widths in the type say all there is, but for `UNKNOWN`: its word must be one that no operation's pattern
matches (R98, R100). The check uses the opcode map of Decode.lean, not the decoder. -/

namespace Sys2Proof

/-- The check: `.unknown w` is an instruction only for `w` in the UNKNOWN space of R100. -/
def Instr.wf : Instr → Bool
  | .unknown w => isUnknownWord w
  | .cls | .ret | .jp _ | .call _ | .seImm _ _ | .sneImm _ _ | .seReg _ _ | .ldImm _ _ | .addImm _ _ => true
  | .ldReg _ _ | .orReg _ _ | .andReg _ _ | .xorReg _ _ | .addReg _ _ | .subReg _ _ | .shr _ _ => true
  | .subnReg _ _ | .shl _ _ | .sneReg _ _ | .ldI _ | .jpV0 _ | .rnd _ _ | .drw _ _ _ | .skp _ | .sknp _ => true
  | .ldVxDt _ | .ldVxK _ | .ldDtVx _ | .ldStVx _ | .addI _ | .ldF _ | .ldB _ | .ldMemVx _ | .ldVxMem _ => true

end Sys2Proof
end

