-- ==== Sys2Proof/Certificates/Slice0/Obligations.lean ====
section
/-! DEFINITION. The statements for the provers. Each docstring names the rule or the section of spec/ it formalises; where a
clause rests on a decision of the spec or of the model, it names the log entry. -/

open Sys2Proof Sys2Proof.Machine

/-! ### Encoding (30_encoding.md) -/

/-- R96 and R107 agree: from the bytes of a well-formed instruction, whatever follows them, the decoder reads that
instruction and leaves the rest. Every operand at every value. -/
def Obligations.DecodeOfEncodeIsTheInstruction : Prop :=
  ∀ (i : Instr) (rest : List Byte), i.wf = true → decode (encode i ++ rest) = .ok (i, rest)

/-- The other direction: each of the 65536 words decodes to a well-formed instruction (R94), and encoding that gives the word
back; the two bytes of a word give the word back (R64). -/
def Obligations.EncodeOfDecodeIsTheWord : Prop :=
  ∀ w : Word, (decodeWord w).wf = true ∧ encodeWord (decodeWord w) = w ∧ wordOfBytes (hiByte w) (loByte w) = w

/-- R98: a word decodes to the kind of a row iff `w & mask == match`. (The values of the rows: logs 9, 10.) -/
def Obligations.DecoderAgreesWithMatchAndMask : Prop :=
  ∀ (w : Word) (r : OpcodeRow), r ∈ opcodeRows → ((decodeWord w).kind = r.kind ↔ w &&& r.mask = r.pattern)

/-- R96: "The patterns are pairwise disjoint": no word matches two rows of the map. -/
def Obligations.OpcodePatternsAreDisjoint : Prop :=
  opcodeRows.Pairwise fun r q => ∀ w : Word, ¬(w &&& r.mask = r.pattern ∧ w &&& q.mask = q.pattern)

/-- The table of R100, family by family: exactly these words are UNKNOWN. (Rests on D6, log 9.) -/
def Obligations.UnknownSpaceIsTheTableOfFamilies : Prop :=
  ∀ w : Word, (decodeWord w).kind = .unknown ↔
    (famOf w = 0x0 ∧ nnnOf w ≠ 0x0E0 ∧ nnnOf w ≠ 0x0EE) ∨
    (famOf w = 0x5 ∧ nOf w ≠ 0x0) ∨
    (famOf w = 0x8 ∧ nOf w ∈ [0x8, 0x9, 0xA, 0xB, 0xC, 0xD, 0xF]) ∨
    (famOf w = 0x9 ∧ nOf w ≠ 0x0) ∨
    (famOf w = 0xE ∧ nnOf w ∉ [0x9E, 0xA1]) ∨
    (famOf w = 0xF ∧ nnOf w ∉ [0x07, 0x0A, 0x15, 0x18, 0x1E, 0x29, 0x33, 0x55, 0x65])

/-- Words written out from the patterns of R98, one of each family of files, decode to what they stand for. (That 0x00E0 is
`CLS`: G1, PRESUMED, log 10; that 0x5121 is UNKNOWN: D6, log 9.) -/
def Obligations.SampleWordsDecodeAsThePatternsSay : Prop :=
  decodeWord 0x00E0 = .cls ∧ decodeWord 0xD125 = .drw 1 2 5 ∧ decodeWord 0x2208 = .call 0x208 ∧
  decodeWord 0x5120 = .seReg 1 2 ∧ decodeWord 0x8014 = .addReg 0 1 ∧ decodeWord 0xC30F = .rnd 3 0x0F ∧
  decodeWord 0xF255 = .ldMemVx 2 ∧ decodeWord 0xE49E = .skp 4 ∧ decodeWord 0xF30A = .ldVxK 3 ∧
  decodeWord 0x5121 = .unknown 0x5121

/-! ### The step (40_step_cycle.md) -/

/-- R123 to R125: a step in Running with both bytes in memory is `exec` of the word at `PC`, first byte high, on the state
with `PC` advanced by 2 and an empty effect set. When the two bytes are those of a well-formed instruction, it is `exec` of
that instruction. (First byte high: log 7.) -/
def Obligations.StepRunsTheDecodedInstruction : Prop :=
  ∀ s : State, s.runState = .running → s.pc.toNat + 1 < Config.memSize →
    step s = exec (decodeWord (wordOfBytes (s.mem.read s.pc.toNat) (s.mem.read (s.pc.toNat + 1))))
      { s with pc := s.pc + 2, effects := [] } ∧
    ∀ i : Instr, i.wf = true → [s.mem.read s.pc.toNat, s.mem.read (s.pc.toNat + 1)] = encode i →
      step s = exec i { s with pc := s.pc + 2, effects := [] }

/-- R124 and R264 for the fetch: with a byte of the word outside memory the step enters Halted with MemOutOfRange and the
lowest offending address; `PC` and everything else stay. (The residual state and the info: D9, log 12.) -/
def Obligations.FetchOutsideMemoryHalts : Prop :=
  ∀ s : State, s.runState = .running → Config.memSize ≤ s.pc.toNat + 1 →
    step s = .next { s with
      runState := .halted
      haltCause := some .memOutOfRange
      effects := [.fatal ⟨.memOutOfRange, some (max s.pc.toNat Config.memSize)⟩] }

/-- R126: the step in AwaitingKey. With no report nothing changes; with a report the key code goes to `V[wait_reg]` and the
machine runs; `PC` stays. (That the latch is cleared: D11, log 14.) -/
def Obligations.AwaitingStepDeliversTheReportedKey : Prop :=
  ∀ s : State, s.runState = .awaitingKey →
    (s.keyLatch = none → step s = .next { s with effects := [] }) ∧
    (∀ k, s.keyLatch = some k → ∃ t, step s = .next t ∧
      (t.vreg s.waitReg).toNat = k.toNat ∧ (∀ r, r ≠ s.waitReg → t.vreg r = s.vreg r) ∧
      t = { s with v := t.v, keyLatch := none, runState := .running, effects := [] })

/-- R127: in Halted a step changes no state element and returns no effect, and no operation but `reset` leaves Halted. -/
def Obligations.HaltedIsTerminal : Prop :=
  ∀ s : State, s.runState = .halted →
    step s = .next { s with effects := [] } ∧
    (∀ keys r, stepWith keys r s =
      .next { s with effects := [], inputs := { s.inputs with keysHeld := none, rnd := none } }) ∧
    (∀ o : HostOp, (∀ program, o ≠ .reset program) → ∃ t, applyOp o s = .next t ∧ t.runState = .halted)

/-- R46 (c): whatever the host does short of `reset`, a halted core keeps every element of its state but four, and each of
those changes under its own operation only: the timers under `tick` (D17, log 21), the latch under `report_key`, the dirty
flag under `clear_dirty`. -/
def Obligations.HaltedCoreKeepsItsStateUntilReset : Prop :=
  ∀ (ops : List HostOp) (s : State), s.runState = .halted → (∀ program, HostOp.reset program ∉ ops) →
    ∃ t, runOps ops s = .next t ∧ t.runState = .halted ∧ t.haltCause = s.haltCause ∧ t.v = s.v ∧ t.i = s.i ∧
      t.pc = s.pc ∧ t.stack = s.stack ∧ t.mem = s.mem ∧ t.disp = s.disp ∧ t.waitReg = s.waitReg ∧
      (HostOp.tick ∉ ops → t.dt = s.dt ∧ t.st = s.st) ∧
      ((∀ k, HostOp.reportKey k ∉ ops) → t.keyLatch = s.keyLatch) ∧
      (HostOp.clearDirty ∉ ops → t.displayDirty = s.displayDirty)

/-- R122: a step returns at most one effect, and none outside Running; a fatal effect is returned exactly by the step that
enters Halted, with the cause that is latched (R266; the latch: D9, log 12). -/
def Obligations.StepReturnsAtMostOneEffect : Prop :=
  ∀ s t : State, step s = .next t →
    t.effects.length ≤ 1 ∧ (s.runState ≠ .running → t.effects = []) ∧
    (s.runState ≠ .halted → (t.runState = .halted ↔ ∃ f, .fatal f ∈ t.effects)) ∧
    (∀ f, .fatal f ∈ t.effects → t.haltCause = some f.cause)

/-- R34, R128: the transitions of a step. Running goes to AwaitingKey exactly by `LD Vx, K`; AwaitingKey goes to Running
exactly with a report, and never to Halted; Halted stays. -/
def Obligations.RunStateTransitionsOfAStep : Prop :=
  ∀ s t : State, step s = .next t →
    (s.runState = .running → (t.runState = .awaitingKey ↔
      s.pc.toNat + 1 < Config.memSize ∧ (decodeWord (wordOfBytes (s.mem.read s.pc.toNat)
        (s.mem.read (s.pc.toNat + 1)))).kind = .ldVxK)) ∧
    (s.runState = .awaitingKey → (t.runState = .running ↔ s.keyLatch ≠ none) ∧ t.runState ≠ .halted) ∧
    (s.runState = .halted → t.runState = .halted)

/-- No step and no host operation but an oversize `reset` ever stops the model: every state has a next state (R101, R264).
The model's choices in it: `LD F, Vx` with `V[X]` above 15 answers a next state, where R212 and D13 prefer a refusal (log 16);
a fatal condition is a next state in Halted (log 12); the bound 3584 rests on MEM_SIZE 4096 (D1, log 4). -/
def Obligations.EveryStepAnswersANextState : Prop :=
  (∀ s : State, ∃ t, step s = .next t) ∧ (∀ (i : Instr) (s : State), ∃ t, exec i s = .next t) ∧
  (∀ (o : HostOp) (s : State), (∀ program, o = .reset program → program.length ≤ 3584) → ∃ t, applyOp o s = .next t)

/-! ### Invariants (10_state.md) -/

/-- The reset state meets R46. -/
def Obligations.ResetStateMeetsTheInvariant : Prop := State.reset.Inv

/-- R46 is kept by every step, from every state that meets it. -/
def Obligations.StepKeepsTheInvariant : Prop :=
  ∀ s t : State, s.Inv → step s = .next t → t.Inv

/-- R46 is kept by every host operation, from every state that meets it; `reset` establishes it from any state. -/
def Obligations.HostOperationKeepsTheInvariant : Prop :=
  (∀ (o : HostOp) (s t : State), s.Inv → applyOp o s = .next t → t.Inv) ∧
  (∀ (program : List Byte) (s t : State), applyOp (.reset program) s = .next t → t.Inv)

/-- R46 (f): during a wait, whatever the host does short of `reset`, `PC`, the destination and everything but the timers,
the latch and the dirty flag stay (the model's own fields, logs 2 and 3, aside), until a step finds a report. -/
def Obligations.WaitKeepsPcUntilAKeyIsReported : Prop :=
  ∀ (o : HostOp) (s t : State), s.runState = .awaitingKey → (∀ program, o ≠ .reset program) →
    applyOp o s = .next t →
    t.pc = s.pc ∧ t.i = s.i ∧ t.stack = s.stack ∧ t.mem = s.mem ∧ t.disp = s.disp ∧ t.haltCause = s.haltCause ∧
    ((t.runState = .awaitingKey ∧ t.waitReg = s.waitReg ∧ t.v = s.v) ∨
      ((∃ keys r, o = .step keys r) ∧ t.runState = .running ∧ s.keyLatch ≠ none))

/-! ### Register and ALU instructions (43_alu.md) -/

/-- R180 and R181: the encodings, the new value of `V[X]`, and nothing else changed, the flag register included unless it
is `V[X]`. -/
def Obligations.LoadAndAddImmediate : Prop :=
  ∀ (x : RegIdx) (nn : Byte) (s : State),
    (decodeWord (wordXI 0x6000 x nn) = .ldImm x nn ∧ decodeWord (wordXI 0x7000 x nn) = .addImm x nn) ∧
    (∃ t, exec (.ldImm x nn) s = .next t ∧ t.vreg x = nn ∧ (∀ r, r ≠ x → t.vreg r = s.vreg r) ∧
      t = { s with v := t.v }) ∧
    (∃ t, exec (.addImm x nn) s = .next t ∧ (t.vreg x).toNat = ((s.vreg x).toNat + nn.toNat) % 256 ∧
      (∀ r, r ≠ x → t.vreg r = s.vreg r) ∧ t = { s with v := t.v })

/-- R182 to R185: assign, OR, AND, XOR, bit by bit; no other register, no flag, nothing else changes. -/
def Obligations.RegisterAssignOrAndXor : Prop :=
  ∀ (x y : RegIdx) (s : State),
    (∃ t, exec (.ldReg x y) s = .next t ∧ t.vreg x = s.vreg y ∧ (∀ r, r ≠ x → t.vreg r = s.vreg r) ∧
      t = { s with v := t.v }) ∧
    (∃ t, exec (.orReg x y) s = .next t ∧
      (∀ k, (t.vreg x).getLsbD k = ((s.vreg x).getLsbD k || (s.vreg y).getLsbD k)) ∧
      (∀ r, r ≠ x → t.vreg r = s.vreg r) ∧ t = { s with v := t.v }) ∧
    (∃ t, exec (.andReg x y) s = .next t ∧
      (∀ k, (t.vreg x).getLsbD k = ((s.vreg x).getLsbD k && (s.vreg y).getLsbD k)) ∧
      (∀ r, r ≠ x → t.vreg r = s.vreg r) ∧ t = { s with v := t.v }) ∧
    (∃ t, exec (.xorReg x y) s = .next t ∧
      (∀ k, (t.vreg x).getLsbD k = ((s.vreg x).getLsbD k ^^ (s.vreg y).getLsbD k)) ∧
      (∀ r, r ≠ x → t.vreg r = s.vreg r) ∧ t = { s with v := t.v })

/-- R186, R187, R189: the sum and the differences modulo 256, and the carry or not-borrow in the flag register, where it
replaces the result if `X` is 0xF (R193: the flag is written last, D8, log 11). Nothing but `V[X]` and `V[0xF]` changes. -/
def Obligations.AddAndSubtractSetTheFlag : Prop :=
  ∀ (x y : RegIdx) (s : State),
    (∃ t, exec (.addReg x y) s = .next t ∧
      (x ≠ 0xF#4 → (t.vreg x).toNat = ((s.vreg x).toNat + (s.vreg y).toNat) % 256) ∧
      t.vreg 0xF#4 = (if (s.vreg x).toNat + (s.vreg y).toNat > 255 then 1 else 0) ∧
      (∀ r, r ≠ x → r ≠ 0xF#4 → t.vreg r = s.vreg r) ∧ t = { s with v := t.v }) ∧
    (∃ t, exec (.subReg x y) s = .next t ∧
      (x ≠ 0xF#4 → (t.vreg x).toNat = (256 + (s.vreg x).toNat - (s.vreg y).toNat) % 256) ∧
      t.vreg 0xF#4 = (if (s.vreg y).toNat > (s.vreg x).toNat then 0 else 1) ∧
      (∀ r, r ≠ x → r ≠ 0xF#4 → t.vreg r = s.vreg r) ∧ t = { s with v := t.v }) ∧
    (∃ t, exec (.subnReg x y) s = .next t ∧
      (x ≠ 0xF#4 → (t.vreg x).toNat = (256 + (s.vreg y).toNat - (s.vreg x).toNat) % 256) ∧
      t.vreg 0xF#4 = (if (s.vreg x).toNat > (s.vreg y).toNat then 0 else 1) ∧
      (∀ r, r ≠ x → r ≠ 0xF#4 → t.vreg r = s.vreg r) ∧ t = { s with v := t.v })

/-- R188, R190: shifts by one, and the bit shifted out in the flag register, where it replaces the result if `X` is 0xF
(D8, log 11); the `Y` field plays no part. -/
def Obligations.ShiftsSetTheFlagToTheBitShiftedOut : Prop :=
  ∀ (x y : RegIdx) (s : State),
    (∃ t, exec (.shr x y) s = .next t ∧ (x ≠ 0xF#4 → (t.vreg x).toNat = (s.vreg x).toNat / 2) ∧
      (t.vreg 0xF#4).toNat = (s.vreg x).toNat % 2 ∧
      (∀ r, r ≠ x → r ≠ 0xF#4 → t.vreg r = s.vreg r) ∧ t = { s with v := t.v }) ∧
    (∃ t, exec (.shl x y) s = .next t ∧ (x ≠ 0xF#4 → (t.vreg x).toNat = 2 * (s.vreg x).toNat % 256) ∧
      (t.vreg 0xF#4).toNat = (s.vreg x).toNat / 128 ∧
      (∀ r, r ≠ x → r ≠ 0xF#4 → t.vreg r = s.vreg r) ∧ t = { s with v := t.v })

/-- R191: `V[X]` becomes the random byte AND NN, for every byte the host presents, and no other register changes; the model
counts the sample (log 2). With no byte presented the value is a free one under the mask. -/
def Obligations.RandomByteIsMasked : Prop :=
  ∀ (x : RegIdx) (nn : Byte) (s : State), ∃ t, exec (.rnd x nn) s = .next t ∧
    (∀ r, s.inputs.rnd = some r → t.vreg x = r &&& nn) ∧ t.vreg x &&& ~~~nn = 0 ∧
    (∀ r, r ≠ x → t.vreg r = s.vreg r) ∧
    t = { s with v := t.v, inputs := ⟨s.inputs.keysHeld, none, s.inputs.samples + 1⟩ }

/-! ### Control transfer (42_control_flow.md) -/

/-- R161 and R167: the encodings, the target, which the sum of R167 does not wrap or reduce, and nothing but `PC` changed. -/
def Obligations.JumpsSetThePc : Prop :=
  ∀ (nnn : Addr12) (s : State),
    (decodeWord (wordA 0x1000 nnn) = .jp nnn ∧ decodeWord (wordA 0xB000 nnn) = .jpV0 nnn) ∧
    (∃ t, exec (.jp nnn) s = .next t ∧ t.pc.toNat = nnn.toNat ∧ t = { s with pc := t.pc }) ∧
    (∃ t, exec (.jpV0 nnn) s = .next t ∧ t.pc.toNat = (s.vreg 0).toNat + nnn.toNat ∧ t = { s with pc := t.pc })

/-- R163 to R166: the encodings; `PC` advances by 2 more, modulo 65536, exactly when the condition holds, and nothing but
`PC` changes. (The words 5XYn and 9XYn with n ≠ 0: UnknownSpaceIsTheTableOfFamilies, log 9.) -/
def Obligations.SkipsCompareRegisters : Prop :=
  ∀ (x y : RegIdx) (nn : Byte) (s : State),
    (decodeWord (wordXI 0x3000 x nn) = .seImm x nn ∧ decodeWord (wordXI 0x4000 x nn) = .sneImm x nn ∧
      decodeWord (wordXYN 0x5000 x y 0) = .seReg x y ∧ decodeWord (wordXYN 0x9000 x y 0) = .sneReg x y) ∧
    (∃ t, exec (.seImm x nn) s = .next t ∧ t = { s with pc := t.pc } ∧
      t.pc.toNat = (if s.vreg x = nn then (s.pc.toNat + 2) % 65536 else s.pc.toNat)) ∧
    (∃ t, exec (.sneImm x nn) s = .next t ∧ t = { s with pc := t.pc } ∧
      t.pc.toNat = (if s.vreg x ≠ nn then (s.pc.toNat + 2) % 65536 else s.pc.toNat)) ∧
    (∃ t, exec (.seReg x y) s = .next t ∧ t = { s with pc := t.pc } ∧
      t.pc.toNat = (if s.vreg x = s.vreg y then (s.pc.toNat + 2) % 65536 else s.pc.toNat)) ∧
    (∃ t, exec (.sneReg x y) s = .next t ∧ t = { s with pc := t.pc } ∧
      t.pc.toNat = (if s.vreg x ≠ s.vreg y then (s.pc.toNat + 2) % 65536 else s.pc.toNat))

/-- R29 and R30: push and pop, on the array view of the stack. A push at depth 16 raises StackOverflow with the value, a pop
at depth 0 raises StackUnderflow, and neither writes anything then. (That the depth is 16: R28, D3, DEDUCED, log 6.) -/
def Obligations.PushAndPopOfTheCallStack : Prop :=
  ∀ (s : State) (w : Word),
    (s.sp = 16 → s.push w = .error ⟨.stackOverflow, some w.toNat⟩) ∧
    (s.sp ≠ 16 → ∃ t, s.push w = .ok t ∧ t.sp = s.sp + 1 ∧ t.stack[s.sp]? = some w ∧
      (∀ k, k < s.sp → t.stack[k]? = s.stack[k]?) ∧ t = { s with stack := t.stack }) ∧
    (s.sp = 0 → s.pop = .error ⟨.stackUnderflow, none⟩) ∧
    (s.sp ≠ 0 → ∃ v t, s.pop = .ok (v, t) ∧ t.sp = s.sp - 1 ∧ s.stack[t.sp]? = some v ∧
      (∀ k, k < t.sp → t.stack[k]? = s.stack[k]?) ∧ t = { s with stack := t.stack })

/-- R162: below depth 16 `CALL` pushes the advanced `PC` and jumps; R160: above depth 0 `RET` pops into `PC`. Nothing but the
stack and `PC` changes. -/
def Obligations.CallPushesAndReturnPops : Prop :=
  ∀ s : State,
    (∀ nnn : Addr12, s.sp ≠ 16 → ∃ t, exec (.call nnn) s = .next t ∧ t.pc.toNat = nnn.toNat ∧
      t.stack = s.stack ++ [s.pc] ∧ t = { s with pc := t.pc, stack := t.stack }) ∧
    (∀ (l : List Word) (w : Word), s.stack = l ++ [w] → exec .ret s = .next { s with pc := w, stack := l })

/-- The fatal conditions of R160 and R162: the 17th nested `CALL` and the `RET` at depth 0 enter Halted with their cause and
change nothing else; `PC` keeps the advanced value. (The residual state and the info: D9, log 12.) -/
def Obligations.StackFaultsHalt : Prop :=
  ∀ s : State,
    (∀ nnn : Addr12, s.sp = 16 → exec (.call nnn) s = .next { s with
      runState := .halted
      haltCause := some .stackOverflow
      effects := s.effects ++ [.fatal ⟨.stackOverflow, some s.pc.toNat⟩] }) ∧
    (s.sp = 0 → exec .ret s = .next { s with
      runState := .halted
      haltCause := some .stackUnderflow
      effects := s.effects ++ [.fatal ⟨.stackUnderflow, none⟩] })

/-- The round trip of R162: after a `CALL` that succeeds, a `RET` in any later state with the same stack restores `PC` to the
instruction after the call and the stack to what it was. -/
def Obligations.CallThenReturnRestoresThePc : Prop :=
  ∀ (nnn : Addr12) (s t u : State), exec (.call nnn) s = .next t → t.runState ≠ .halted → u.stack = t.stack →
    ∃ r, exec .ret u = .next r ∧ r.pc = s.pc ∧ r.stack = s.stack

/-! ### Index and memory instructions (44_index_memory.md) -/

/-- R210 and R211: the encodings, the new value of `I`, and nothing else changed, the flag register included. -/
def Obligations.LoadAndAddToIndex : Prop :=
  ∀ (nnn : Addr12) (x : RegIdx) (s : State),
    (decodeWord (wordA 0xA000 nnn) = .ldI nnn ∧ decodeWord (wordXS 0xF01E x) = .addI x) ∧
    (∃ t, exec (.ldI nnn) s = .next t ∧ t.i.toNat = nnn.toNat ∧ t = { s with i := t.i }) ∧
    (∃ t, exec (.addI x) s = .next t ∧ t.i.toNat = (s.i.toNat + (s.vreg x).toNat) % 65536 ∧ t = { s with i := t.i })

/-- R212: `I` becomes FONT_BASE + 5 * V[X], the address of the glyph of a digit 0 … 15, and nothing else changes. Above 15 the
document states no behaviour: D13 leaves FONT_INDEX_OOR open between a refusal, its default, and the formula; both settings are
stated, and that `exec` is set to the formula is the model's choice (DESIGN CHOICE, log 16). -/
def Obligations.FontAddressSelectsTheGlyph : Prop :=
  ∀ (x : RegIdx) (s : State),
    (∃ t, exec (.ldF x) s = .next t ∧ t = { s with i := t.i } ∧
      t.i.toNat = Config.fontBase + 5 * (s.vreg x).toNat) ∧
    ((s.vreg x).toNat ≤ 15 → ∀ oor, s.loadFontAddress oor x = exec (.ldF x) s) ∧
    (15 < (s.vreg x).toNat → s.loadFontAddress .formula x = exec (.ldF x) s ∧
      s.loadFontAddress .refuse x = .refused (.fontIndexOutOfRange (s.vreg x)))

/-- R213: with the three bytes in memory, `LD B` stores the hundreds, tens and ones at `I`, `I+1`, `I+2`; every other byte,
`I` (D14, log 17) and everything else stay. -/
def Obligations.BcdDigitsAreStored : Prop :=
  ∀ (x : RegIdx) (s : State), s.mem.wf → s.indexAddr + 2 < Config.memSize → ∃ t, exec (.ldB x) s = .next t ∧
    (t.mem.read s.indexAddr).toNat = (s.vreg x).toNat / 100 ∧
    (t.mem.read (s.indexAddr + 1)).toNat = (s.vreg x).toNat / 10 % 10 ∧
    (t.mem.read (s.indexAddr + 2)).toNat = (s.vreg x).toNat % 10 ∧
    (∀ a, ¬(s.indexAddr ≤ a ∧ a < s.indexAddr + 3) → t.mem.read a = s.mem.read a) ∧
    t = { s with mem := t.mem }

/-- R214: with the X+1 bytes in memory, `LD [I], Vx` stores `V[k]` at `I + k` for each k up to X; every other byte, `I` (D14,
log 17) and everything else stay. -/
def Obligations.RegisterDumpStoresTheRange : Prop :=
  ∀ (x : RegIdx) (s : State), s.mem.wf → s.indexAddr + x.toNat < Config.memSize →
    ∃ t, exec (.ldMemVx x) s = .next t ∧
      (∀ r : RegIdx, r.toNat ≤ x.toNat → t.mem.read (s.indexAddr + r.toNat) = s.vreg r) ∧
      (∀ a, ¬(s.indexAddr ≤ a ∧ a < s.indexAddr + x.toNat + 1) → t.mem.read a = s.mem.read a) ∧
      t = { s with mem := t.mem }

/-- R215: with the X+1 bytes in memory, `LD Vx, [I]` loads `V[k]` from `I + k` for each k up to X; every other register, `I`
(D14, log 17), memory and everything else stay. -/
def Obligations.RegisterLoadReadsTheRange : Prop :=
  ∀ (x : RegIdx) (s : State), s.indexAddr + x.toNat < Config.memSize →
    ∃ t, exec (.ldVxMem x) s = .next t ∧
      (∀ r : RegIdx, r.toNat ≤ x.toNat → t.vreg r = s.mem.read (s.indexAddr + r.toNat)) ∧
      (∀ r : RegIdx, x.toNat < r.toNat → t.vreg r = s.vreg r) ∧
      t = { s with v := t.v }

/-- The fatal conditions of R151, R213, R214, R215: an access that reaches MEM_SIZE enters Halted with MemOutOfRange and the
lowest offending address and changes nothing else: no byte, no register, no pixel. (D9, log 12; that clipped rows are read
too: D25, log 27.) -/
def Obligations.AccessOutsideMemoryHalts : Prop :=
  ∀ (x y : RegIdx) (n : Nibble) (s t : State),
    t = { s with
      runState := .halted
      haltCause := some .memOutOfRange
      effects := s.effects ++ [.fatal ⟨.memOutOfRange, some (max s.i.toNat Config.memSize)⟩] } →
    (Config.memSize ≤ s.i.toNat + 2 → exec (.ldB x) s = .next t) ∧
    (Config.memSize ≤ s.i.toNat + x.toNat → exec (.ldMemVx x) s = .next t ∧ exec (.ldVxMem x) s = .next t) ∧
    (n ≠ 0 → Config.memSize < s.i.toNat + n.toNat → exec (.drw x y n) s = .next t)

/-- R214 then R215 (with R216, D14, log 17): registers dumped and loaded back are what they were, whatever happened to the
registers between. -/
def Obligations.DumpThenLoadRestoresTheRegisters : Prop :=
  ∀ (x : RegIdx) (s t u : State), s.mem.wf → exec (.ldMemVx x) s = .next t → t.runState ≠ .halted →
    u.mem = t.mem → u.i = t.i →
    ∃ r, exec (.ldVxMem x) u = .next r ∧ ∀ q : RegIdx, q.toNat ≤ x.toNat → r.vreg q = s.vreg q

/-- R74 (D21, log 24): what a dump stores is what the next fetch there reads, with nothing in between. -/
def Obligations.StoreIsSeenByTheNextFetch : Prop :=
  ∀ (x : RegIdx) (s t : State), s.mem.wf → 1 ≤ x.toNat → s.runState = .running →
    exec (.ldMemVx x) s = .next t → t.runState = .running →
    step { t with pc := t.i } = exec (decodeWord (wordOfBytes (s.vreg 0) (s.vreg 1))) { t with pc := t.i + 2, effects := [] }

/-- R73: a read returns the most recent write to its address, or the reset content; a write inside memory keeps the
canonical form, in which equal contents are equal memories (the form is the model's). -/
def Obligations.MemoryReadsTheMostRecentWrite : Prop :=
  (∀ (m : Memory) (a k : Nat) (b : Byte), m.wf → (m.write a b).read k = if k = a then b else m.read k) ∧
  (∀ (m : Memory) (a : Nat) (b : Byte), m.wf → a < Config.memSize → (m.write a b).wf) ∧
  (∀ m n : Memory, m.wf → n.wf → (∀ a, m.read a = n.read a) → m = n)

/-! ### Display instructions (41_display.md) -/

/-- R150: `CLS` clears every pixel, marks the display dirty, returns the effect, and changes nothing else. -/
def Obligations.ClearDisplayClearsEveryPixel : Prop :=
  ∀ s : State, ∃ t, exec .cls s = .next t ∧ (∀ x y, pixel t.disp x y = false) ∧
    t = { s with disp := t.disp, displayDirty := true, effects := s.effects ++ [.displayDirtied] }

/-- R151, pixel by pixel: with all N bytes in memory (or N = 0), a pixel is flipped iff a set bit of the sprite, placed at
(V[X] mod 64, V[Y] mod 32) and clipped, lies on it; the flag register is 1 iff some pixel went from set to clear; the
display is dirty; nothing else changes. (Bit order: D18, log 22; N = 0: D25, log 27; `I`: D14, log 17.) -/
def Obligations.DrawXorsTheSprite : Prop :=
  ∀ (x y : RegIdx) (n : Nibble) (s : State), (n = 0 ∨ s.indexAddr + n.toNat ≤ Config.memSize) →
    ∃ t, exec (.drw x y n) s = .next t ∧
      (∀ a b, a < 64 → b < 32 → pixel t.disp a b = (pixel s.disp a b ^^
        spriteCovers ((s.vreg x).toNat % 64) ((s.vreg y).toNat % 32)
          ((List.range n.toNat).map fun k => s.mem.read (s.indexAddr + k)) a b)) ∧
      (t.vreg 0xF#4 = 1 ↔ ∃ a b, a < 64 ∧ b < 32 ∧ pixel s.disp a b = true ∧ pixel t.disp a b = false) ∧
      (t.vreg 0xF#4 = 0 ∨ t.vreg 0xF#4 = 1) ∧
      (∀ r, r ≠ 0xF#4 → t.vreg r = s.vreg r) ∧
      t = { s with v := t.v, disp := t.disp, displayDirty := true, effects := s.effects ++ [.displayDirtied] }

/-- The involution of R151: drawing the same sprite at the same place twice restores the display, and the second draw
collides iff the first set at least one pixel. Between the draws the memory, `I` (D14, log 17) and the two coordinates are
unchanged, so the coordinate registers are not the flag register. (N = 0: D25, log 27.) -/
def Obligations.DrawingTwiceRestoresTheDisplay : Prop :=
  ∀ (x y : RegIdx) (n : Nibble) (s t : State), x ≠ 0xF#4 → y ≠ 0xF#4 →
    exec (.drw x y n) s = .next t → t.runState ≠ .halted →
    ∃ r, exec (.drw x y n) t = .next r ∧ r.disp = s.disp ∧
      (r.vreg 0xF#4 = 1 ↔ ∃ a b, a < 64 ∧ b < 32 ∧ pixel s.disp a b = false ∧ pixel t.disp a b = true)

/-! ### Keypad and timers (45_keypad_timers.md, 60_exceptions.md) -/

/-- R230 and R231: for every held-key vector the host presents, `SKP` skips iff the register names a held key, and `SKNP` iff
not; a value above 15 names no key (D12, log 15). Nothing but `PC` changes; the model counts the sample (log 2). -/
def Obligations.SkipOnKeyTestsTheHeldKey : Prop :=
  ∀ (x : RegIdx) (s : State), ∃ t u, exec (.skp x) s = .next t ∧ exec (.sknp x) s = .next u ∧
    (∀ keys : BitVec 16, s.inputs.keysHeld = some keys →
      t.pc = (if (s.vreg x).toNat ≤ 15 ∧ keys.getLsbD (s.vreg x).toNat = true then s.pc + 2 else s.pc)) ∧
    ((t.pc = s.pc + 2 ∧ u.pc = s.pc) ∨ (t.pc = s.pc ∧ u.pc = s.pc + 2)) ∧
    t = { s with pc := t.pc, inputs := ⟨none, s.inputs.rnd, s.inputs.samples + 1⟩ } ∧
    u = { s with pc := u.pc, inputs := ⟨none, s.inputs.rnd, s.inputs.samples + 1⟩ }

/-- R232, R234, R235: the encodings; the timer read and the two timer writes, and nothing else changed; the output
`sound_active` follows the write of `ST` at once. -/
def Obligations.TimerReadAndWrites : Prop :=
  ∀ (x : RegIdx) (s : State),
    (decodeWord (wordXS 0xF007 x) = .ldVxDt x ∧ decodeWord (wordXS 0xF015 x) = .ldDtVx x ∧
      decodeWord (wordXS 0xF018 x) = .ldStVx x) ∧
    (∃ t, exec (.ldVxDt x) s = .next t ∧ t.vreg x = s.dt ∧ (∀ r, r ≠ x → t.vreg r = s.vreg r) ∧
      t = { s with v := t.v }) ∧
    exec (.ldDtVx x) s = .next { s with dt := s.vreg x } ∧
    (∃ t, exec (.ldStVx x) s = .next t ∧ t = { s with st := s.vreg x } ∧
      (t.outputs.soundActive = true ↔ s.vreg x ≠ 0))

/-- R233: `LD Vx, K` enters the wait with its destination and returns `key_requested`; no register is written. (That an
earlier report is discarded: D11, log 14.) -/
def Obligations.KeyReadEntersTheWait : Prop :=
  ∀ (x : RegIdx) (s : State), exec (.ldVxK x) s = .next { s with
    runState := .awaitingKey, waitReg := x, keyLatch := none, effects := s.effects ++ [.keyRequested] }

/-- The property of R233: after `LD Vx, K` any number of steps and ticks without a report leave the wait as it is; a report
of `k` and one step put `k` in the destination and return to Running at the instruction after the wait. (D11, log 14.) -/
def Obligations.KeyReadDeliversTheReportedKey : Prop :=
  ∀ (x : RegIdx) (k : Nibble) (keys : BitVec 16) (r : Byte) (ops : List HostOp) (s t : State),
    exec (.ldVxK x) s = .next t → (∀ o ∈ ops, o = .tick ∨ ∃ keys' r', o = .step keys' r') →
    ∃ u w, runOps ops t = .next u ∧ u.runState = .awaitingKey ∧ u.v = s.v ∧ u.pc = s.pc ∧
      runOps [.reportKey k, .step keys r] u = .next w ∧ w.runState = .running ∧ w.pc = s.pc ∧
      (w.vreg x).toNat = k.toNat ∧ (∀ q, q ≠ x → w.vreg q = s.vreg q)

/-- R270: one tick decrements each timer that is not 0, the one independently of the other, and changes nothing else. -/
def Obligations.TickDecrementsTheTimers : Prop :=
  ∀ s : State, applyOp .tick s = .next s.tick ∧
    s.tick.dt.toNat = s.dt.toNat - 1 ∧ s.tick.st.toNat = s.st.toNat - 1 ∧
    s.tick = { s with dt := s.tick.dt, st := s.tick.st }

/-- R270 over a run: k ticks take k from each timer, down to 0 and never below, in whatever run state (R271, D17, log 21). -/
def Obligations.TicksCountDownToZero : Prop :=
  ∀ (k : Nat) (s : State), ∃ t, runOps (List.replicate k .tick) s = .next t ∧
    t.dt.toNat = s.dt.toNat - k ∧ t.st.toNat = s.st.toNat - k ∧ t = { s with dt := t.dt, st := t.st }

/-- R130 and R131: a report sets the latch, an acknowledgement clears the dirty flag, in every run state, and neither does
anything else. (D11, log 14; D16, log 20.) -/
def Obligations.ReportAndAcknowledge : Prop :=
  ∀ (s : State) (k : Nibble), applyOp (.reportKey k) s = .next { s with keyLatch := some k } ∧
    applyOp .clearDirty s = .next { s with displayDirty := false }

/-! ### UNKNOWN (46_unknown.md) -/

/-- R250: an UNKNOWN word changes nothing but `PC`, which the fetch advances. -/
def Obligations.UnknownWordsOnlyAdvanceThePc : Prop :=
  ∀ (w : Word) (s : State), exec (.unknown w) s = .next s ∧
    (s.runState = .running → s.pc.toNat + 1 < Config.memSize →
      (decodeWord (wordOfBytes (s.mem.read s.pc.toNat) (s.mem.read (s.pc.toNat + 1)))).kind = .unknown →
      step s = .next { s with pc := s.pc + 2, effects := [] })

/-! ### Reset (70_reset_and_hazards.md) -/

/-- R303: after the reset of any program that fits, the machine is Running with `PC` at 0x200, and the first step runs the
word there. -/
def Obligations.ResetEntersAtTheEntryPoint : Prop :=
  ∀ (program : List Byte) (s t : State), applyOp (.reset program) s = .next t →
    t.runState = .running ∧ t.pc = 0x200 ∧ t.sp = 0 ∧ t.haltCause = none ∧
    step t = exec (decodeWord (wordOfBytes (t.mem.read 0x200) (t.mem.read 0x201))) { t with pc := 0x202, effects := [] }

/-- R300: a program that fits is copied verbatim to 0x200 on; R301: a longer one fails construction, and there is no state.
(The bound 3584 rests on MEM_SIZE 4096: D1, log 4.) -/
def Obligations.OversizeProgramFailsConstruction : Prop :=
  ∀ (program : List Byte) (s : State),
    (program.length ≤ 3584 → ∃ t, applyOp (.reset program) s = .next t ∧
      ∀ k, k < program.length → t.mem.read (0x200 + k) = program.getD k 0) ∧
    (3584 < program.length → applyOp (.reset program) s = .fault (.programTooLarge program.length))

/-- R45, the values the spec decided (D15, logs 18 and 19, the model's choice as well): after reset every register, timer,
pixel and flag is 0, the latch empty; memory is the font, the program and 0x00 elsewhere (font bytes: log 23). -/
def Obligations.ResetValuesDecidedByTheSpec : Prop :=
  ∀ (program : List Byte) (s t : State), applyOp (.reset program) s = .next t →
    (∀ r, t.vreg r = 0) ∧ t.i = 0 ∧ t.dt = 0 ∧ t.st = 0 ∧ (∀ x y, pixel t.disp x y = false) ∧ t.waitReg = 0 ∧
    t.keyLatch = none ∧ t.displayDirty = false ∧
    (∀ d k, d < 16 → k < 5 → t.mem.read (Config.fontBase + 5 * d + k) = Config.font.getD (5 * d + k) 0) ∧
    (∀ a, a < 0x200 → Config.fontBase + 80 ≤ a → t.mem.read a = 0) ∧
    (∀ k, k < program.length → t.mem.read (0x200 + k) = program.getD k 0) ∧
    (∀ a, 0x200 + program.length ≤ a → t.mem.read a = 0)

/-! ### Whole-machine rules -/

/-- R44 (and R23, R25, R27, R31 to R33, R35, R36, R38): which instruction can change which element. Every byte of memory reads
as before but after `LD B` and `LD [I]`. (`halt_cause` and `run_state` change by the fatal conditions too; the model's own
fields: logs 2, 3.) -/
def Obligations.ElementsChangeOnlyByTheirInstructions : Prop :=
  ∀ (i : Instr) (s t : State), exec i s = .next t →
    (i.kind ∉ [.ldI, .addI, .ldF] → t.i = s.i) ∧
    (i.kind ∉ [.ret, .jp, .call, .seImm, .sneImm, .seReg, .sneReg, .jpV0, .skp, .sknp] → t.pc = s.pc) ∧
    (i.kind ∉ [.ret, .call] → t.stack = s.stack) ∧
    (i.kind ≠ .ldDtVx → t.dt = s.dt) ∧ (i.kind ≠ .ldStVx → t.st = s.st) ∧
    (i.kind ∉ [.cls, .drw] → t.disp = s.disp ∧ t.displayDirty = s.displayDirty) ∧
    (i.kind ∉ [.ldB, .ldMemVx] → ∀ a, t.mem.read a = s.mem.read a) ∧
    (i.kind ≠ .ldVxK → t.waitReg = s.waitReg ∧ t.keyLatch = s.keyLatch) ∧
    (i.kind ∉ [.rnd, .skp, .sknp] → t.inputs = s.inputs) ∧
    (i.kind ∉ [.ldVxK, .call, .ret, .drw, .ldB, .ldMemVx, .ldVxMem] → t.runState = s.runState) ∧
    (i.kind ∉ [.call, .ret, .drw, .ldB, .ldMemVx, .ldVxMem] → t.haltCause = s.haltCause) ∧
    (i.kind ∉ [.cls, .drw, .ldVxK, .call, .ret, .ldB, .ldMemVx, .ldVxMem] → t.effects = s.effects)

/-- R22, R44: a register changes only as the destination, in the range of a load, or as the flag register of one of the six
flag-writing instructions; those six leave 0 or 1 there unless they entered Halted. -/
def Obligations.RegistersChangeOnlyAsTheSpecLists : Prop :=
  ∀ (i : Instr) (s t : State), exec i s = .next t →
    (∀ r, writesReg i r = false → t.vreg r = s.vreg r) ∧
    (i.kind ∈ [.addReg, .subReg, .shr, .subnReg, .shl, .drw] → t.runState = s.runState → s.runState ≠ .halted →
      t.vreg 0xF#4 = 0 ∨ t.vreg 0xF#4 = 1)

/-- R261: in its execute phase `CALL` can raise StackOverflow only and at depth 16 only, `RET` StackUnderflow at depth 0,
`DRW`, `LD B`, `LD [I], Vx`, `LD Vx, [I]` MemOutOfRange and only if the access leaves memory, and no other instruction
anything; a fatal condition leaves every element but `run_state` and `halt_cause` as it was (D9, log 12). -/
def Obligations.OnlySixInstructionsRaise : Prop :=
  ∀ (i : Instr) (s t : State), s.runState = .running → exec i s = .next t →
    (t.runState = .halted ↔
      (i.kind = .call ∧ s.sp = 16) ∨ (i.kind = .ret ∧ s.sp = 0) ∨
      (∃ x y n, i = .drw x y n ∧ n ≠ 0 ∧ Config.memSize < s.i.toNat + n.toNat) ∨
      (i.kind = .ldB ∧ Config.memSize ≤ s.i.toNat + 2) ∨
      (∃ x, (i = .ldMemVx x ∨ i = .ldVxMem x) ∧ Config.memSize ≤ s.i.toNat + x.toNat)) ∧
    (t.runState = .halted → ∃ f, t = s.raise f ∧
      f.cause = (if i.kind = .call then .stackOverflow else if i.kind = .ret then .stackUnderflow else .memOutOfRange))

/-- R42, R43 as noninterference: the inputs of a step reach the machine only through `RND`, `SKP` and `SKNP`; any other
instruction does the same whatever they are. -/
def Obligations.InputsReachOnlyTheirInstructions : Prop :=
  ∀ (i : Instr) (s t : State) (inputs : Inputs), i.kind ∉ [.rnd, .skp, .sknp] → exec i s = .next t →
    exec i { s with inputs := inputs } = .next { t with inputs := inputs }

/-- R36: the latch is read only by a step in AwaitingKey. In Running a step does the same whatever the latch holds, but for
the latch itself, which `LD Vx, K` discards (D11, log 14). -/
def Obligations.KeyLatchIsNotReadWhileRunning : Prop :=
  ∀ (s t u : State) (k : Option Nibble), s.runState = .running → step s = .next t →
    step { s with keyLatch := k } = .next u → u = { t with keyLatch := u.keyLatch }

/-- R31, R273: `ST` is read by no instruction. Whatever it holds, an instruction does the same to everything else. -/
def Obligations.SoundTimerIsReadByNoInstruction : Prop :=
  ∀ (i : Instr) (s t : State) (b : Byte), exec i s = .next t →
    ∃ u, exec i { s with st := b } = .next u ∧ u = { t with st := u.st } ∧ (i.kind ≠ .ldStVx → u.st = b)

/-- R40: the level outputs, as functions of the state. (The codes of `halt_cause`: R37, D9, log 12.) -/
def Obligations.OutputsFollowTheState : Prop :=
  ∀ s : State, s.outputs.display = s.disp ∧ s.outputs.displayDirty = s.displayDirty ∧
    (s.outputs.needsKey = true ↔ s.runState = .awaitingKey) ∧ (s.outputs.soundActive = true ↔ s.st ≠ 0) ∧
    (s.outputs.halted = true ↔ s.runState = .halted) ∧
    (s.haltCause = none → s.outputs.haltCause = 0) ∧
    (s.haltCause = some .stackOverflow → s.outputs.haltCause = 1) ∧
    (s.haltCause = some .stackUnderflow → s.outputs.haltCause = 2) ∧
    (s.haltCause = some .memOutOfRange → s.outputs.haltCause = 3) ∧
    (s.Inv → (s.outputs.haltCause = 0 ↔ s.runState ≠ .halted))

/-- The host's way to place one instruction: after `withFetchWord` the very next step runs exactly that word's instruction
(log 31). -/
def Obligations.PlacedWordIsTheNextInstruction : Prop :=
  ∀ (s : State) (w : Word), s.mem.wf →
    step (s.withFetchWord 16 w.toNat) = exec (decodeWord w)
      { s.withFetchWord 16 w.toNat with pc := (s.withFetchWord 16 w.toNat).pc + 2, effects := [] }
end

