-- ==== Sys2Proof/Laws/Bits.lean ====
section
/-! SUPPORT. The fields of a word put together by the encoder, and a masked word in terms of its fields. -/

namespace Sys2Proof

/-! ### The fields of an encoded word -/

theorem famOf_wordA (m : Word) (n : Addr12) : famOf (wordA m n) = famOf m := by
  ext k hk; interval_cases k <;> simp [wordA, famOf]
theorem nnnOf_wordA (m : Word) (n : Addr12) : nnnOf (wordA m n) = nnnOf m ||| n := by
  ext k hk; interval_cases k <;> simp [wordA, nnnOf]

theorem famOf_wordXI (m : Word) (x : RegIdx) (nn : Byte) : famOf (wordXI m x nn) = famOf m := by
  ext k hk; interval_cases k <;> simp [wordXI, famOf]
theorem xOf_wordXI (m : Word) (x : RegIdx) (nn : Byte) : xOf (wordXI m x nn) = xOf m ||| x := by
  ext k hk; interval_cases k <;> simp [wordXI, xOf]
theorem nnOf_wordXI (m : Word) (x : RegIdx) (nn : Byte) : nnOf (wordXI m x nn) = nnOf m ||| nn := by
  ext k hk; interval_cases k <;> simp [wordXI, nnOf]

theorem famOf_wordXYN (m : Word) (x y : RegIdx) (n : Nibble) : famOf (wordXYN m x y n) = famOf m := by
  ext k hk; interval_cases k <;> simp [wordXYN, famOf]
theorem xOf_wordXYN (m : Word) (x y : RegIdx) (n : Nibble) : xOf (wordXYN m x y n) = xOf m ||| x := by
  ext k hk; interval_cases k <;> simp [wordXYN, xOf]
theorem yOf_wordXYN (m : Word) (x y : RegIdx) (n : Nibble) : yOf (wordXYN m x y n) = yOf m ||| y := by
  ext k hk; interval_cases k <;> simp [wordXYN, yOf]
theorem nOf_wordXYN (m : Word) (x y : RegIdx) (n : Nibble) : nOf (wordXYN m x y n) = nOf m ||| n := by
  ext k hk; interval_cases k <;> simp [wordXYN, nOf]

theorem famOf_wordXS (m : Word) (x : RegIdx) : famOf (wordXS m x) = famOf m := by
  ext k hk; interval_cases k <;> simp [wordXS, famOf]
theorem xOf_wordXS (m : Word) (x : RegIdx) : xOf (wordXS m x) = xOf m ||| x := by
  ext k hk; interval_cases k <;> simp [wordXS, xOf]
theorem nnOf_wordXS (m : Word) (x : RegIdx) : nnOf (wordXS m x) = nnOf m := by
  ext k hk; interval_cases k <;> simp [wordXS, nnOf]

/-! ### A word from its fields -/

theorem word_of_fam_nnn (w : Word) : wordA ((famOf w).setWidth 16 <<< 12) (nnnOf w) = w := by
  ext k hk; interval_cases k <;> simp [wordA, famOf, nnnOf]
theorem word_of_fam_x_nn (w : Word) : wordXI ((famOf w).setWidth 16 <<< 12) (xOf w) (nnOf w) = w := by
  ext k hk; interval_cases k <;> simp [wordXI, famOf, xOf, nnOf]
theorem word_of_fam_x_y_n (w : Word) :
    wordXYN ((famOf w).setWidth 16 <<< 12) (xOf w) (yOf w) (nOf w) = w := by
  ext k hk; interval_cases k <;> simp [wordXYN, famOf, xOf, yOf, nOf]

/-! ### A masked word (R98) -/

theorem and_F000 (w : Word) : w &&& 0xF000#16 = (famOf w).setWidth 16 <<< 12 := by
  ext k hk; interval_cases k <;> simp [famOf]
theorem and_F00F (w : Word) : w &&& 0xF00F#16 = (famOf w).setWidth 16 <<< 12 ||| (nOf w).setWidth 16 := by
  ext k hk; interval_cases k <;> simp [famOf, nOf]
theorem and_F0FF (w : Word) : w &&& 0xF0FF#16 = (famOf w).setWidth 16 <<< 12 ||| (nnOf w).setWidth 16 := by
  ext k hk; interval_cases k <;> simp [famOf, nnOf]
theorem and_FFFF (w : Word) : w &&& 0xFFFF#16 = w := by
  ext k hk; interval_cases k <;> simp

/-- The bytes of a word built from two bytes (R64). -/
theorem hiByte_wordOfBytes (b0 b1 : Byte) : hiByte (wordOfBytes b0 b1) = b0 := by
  ext k hk; interval_cases k <;> simp [wordOfBytes, hiByte]
theorem loByte_wordOfBytes (b0 b1 : Byte) : loByte (wordOfBytes b0 b1) = b1 := by
  ext k hk; interval_cases k <;> simp [wordOfBytes, loByte]

/-- The bytes of a word give the word back (R64). -/
theorem wordOfBytes_hi_lo (w : Word) : wordOfBytes (hiByte w) (loByte w) = w := by
  ext k hk; interval_cases k <;> simp [wordOfBytes, hiByte, loByte]

end Sys2Proof
end

