-- ==== Sys2Proof/Laws/State.lean ====
section
/-! SUPPORT. What each named update of the state does to each field, and to the reading of a register: one lemma per field
per update, so that no proof unfolds a record update. -/

namespace Sys2Proof.Machine

/-! ### `setV` -/

/-- Reading a register after a write to one. -/
@[simp] theorem vreg_setV (s : State) (r q : RegIdx) (b : Byte) :
    (s.setV r b).vreg q = if q = r then b else s.vreg q := by
  simp only [State.vreg, State.setV, Vector.getElem_set, BitVec.toNat_inj, eq_comm]

/-- Two states with the same register file read alike. -/
theorem vreg_congr (s t : State) (h : s.v = t.v) (q : RegIdx) : s.vreg q = t.vreg q := by
  simp only [State.vreg, h]

/-- A register file is determined by what its registers read as. -/
theorem v_ext (s t : State) (h : ∀ q, s.vreg q = t.vreg q) : s.v = t.v := by
  apply Vector.ext
  intro k hk
  have := h (BitVec.ofNat 4 k)
  simpa [State.vreg, Nat.mod_eq_of_lt hk] using this

@[simp] theorem setV_i (s : State) (r : RegIdx) (b : Byte) : (s.setV r b).i = s.i := rfl
@[simp] theorem setV_pc (s : State) (r : RegIdx) (b : Byte) : (s.setV r b).pc = s.pc := rfl
@[simp] theorem setV_stack (s : State) (r : RegIdx) (b : Byte) : (s.setV r b).stack = s.stack := rfl
@[simp] theorem setV_dt (s : State) (r : RegIdx) (b : Byte) : (s.setV r b).dt = s.dt := rfl
@[simp] theorem setV_st (s : State) (r : RegIdx) (b : Byte) : (s.setV r b).st = s.st := rfl
@[simp] theorem setV_disp (s : State) (r : RegIdx) (b : Byte) : (s.setV r b).disp = s.disp := rfl
@[simp] theorem setV_mem (s : State) (r : RegIdx) (b : Byte) : (s.setV r b).mem = s.mem := rfl
@[simp] theorem setV_runState (s : State) (r : RegIdx) (b : Byte) : (s.setV r b).runState = s.runState := rfl
@[simp] theorem setV_waitReg (s : State) (r : RegIdx) (b : Byte) : (s.setV r b).waitReg = s.waitReg := rfl
@[simp] theorem setV_keyLatch (s : State) (r : RegIdx) (b : Byte) : (s.setV r b).keyLatch = s.keyLatch := rfl
@[simp] theorem setV_displayDirty (s : State) (r : RegIdx) (b : Byte) : (s.setV r b).displayDirty = s.displayDirty := rfl
@[simp] theorem setV_haltCause (s : State) (r : RegIdx) (b : Byte) : (s.setV r b).haltCause = s.haltCause := rfl
@[simp] theorem setV_inputs (s : State) (r : RegIdx) (b : Byte) : (s.setV r b).inputs = s.inputs := rfl
@[simp] theorem setV_effects (s : State) (r : RegIdx) (b : Byte) : (s.setV r b).effects = s.effects := rfl

/-! ### `setI` -/

@[simp] theorem setI_v (s : State) (w : Word) : (s.setI w).v = s.v := rfl
@[simp] theorem setI_i (s : State) (w : Word) : (s.setI w).i = w := rfl
@[simp] theorem setI_pc (s : State) (w : Word) : (s.setI w).pc = s.pc := rfl
@[simp] theorem setI_stack (s : State) (w : Word) : (s.setI w).stack = s.stack := rfl
@[simp] theorem setI_dt (s : State) (w : Word) : (s.setI w).dt = s.dt := rfl
@[simp] theorem setI_st (s : State) (w : Word) : (s.setI w).st = s.st := rfl
@[simp] theorem setI_disp (s : State) (w : Word) : (s.setI w).disp = s.disp := rfl
@[simp] theorem setI_mem (s : State) (w : Word) : (s.setI w).mem = s.mem := rfl
@[simp] theorem setI_runState (s : State) (w : Word) : (s.setI w).runState = s.runState := rfl
@[simp] theorem setI_waitReg (s : State) (w : Word) : (s.setI w).waitReg = s.waitReg := rfl
@[simp] theorem setI_keyLatch (s : State) (w : Word) : (s.setI w).keyLatch = s.keyLatch := rfl
@[simp] theorem setI_displayDirty (s : State) (w : Word) : (s.setI w).displayDirty = s.displayDirty := rfl
@[simp] theorem setI_haltCause (s : State) (w : Word) : (s.setI w).haltCause = s.haltCause := rfl
@[simp] theorem setI_inputs (s : State) (w : Word) : (s.setI w).inputs = s.inputs := rfl
@[simp] theorem setI_effects (s : State) (w : Word) : (s.setI w).effects = s.effects := rfl
@[simp] theorem setI_vreg (s : State) (w : Word) (q : RegIdx) : (s.setI w).vreg q = s.vreg q := rfl

/-! ### `setPc` -/

@[simp] theorem setPc_v (s : State) (w : Word) : (s.setPc w).v = s.v := rfl
@[simp] theorem setPc_i (s : State) (w : Word) : (s.setPc w).i = s.i := rfl
@[simp] theorem setPc_pc (s : State) (w : Word) : (s.setPc w).pc = w := rfl
@[simp] theorem setPc_stack (s : State) (w : Word) : (s.setPc w).stack = s.stack := rfl
@[simp] theorem setPc_dt (s : State) (w : Word) : (s.setPc w).dt = s.dt := rfl
@[simp] theorem setPc_st (s : State) (w : Word) : (s.setPc w).st = s.st := rfl
@[simp] theorem setPc_disp (s : State) (w : Word) : (s.setPc w).disp = s.disp := rfl
@[simp] theorem setPc_mem (s : State) (w : Word) : (s.setPc w).mem = s.mem := rfl
@[simp] theorem setPc_runState (s : State) (w : Word) : (s.setPc w).runState = s.runState := rfl
@[simp] theorem setPc_waitReg (s : State) (w : Word) : (s.setPc w).waitReg = s.waitReg := rfl
@[simp] theorem setPc_keyLatch (s : State) (w : Word) : (s.setPc w).keyLatch = s.keyLatch := rfl
@[simp] theorem setPc_displayDirty (s : State) (w : Word) : (s.setPc w).displayDirty = s.displayDirty := rfl
@[simp] theorem setPc_haltCause (s : State) (w : Word) : (s.setPc w).haltCause = s.haltCause := rfl
@[simp] theorem setPc_inputs (s : State) (w : Word) : (s.setPc w).inputs = s.inputs := rfl
@[simp] theorem setPc_effects (s : State) (w : Word) : (s.setPc w).effects = s.effects := rfl
@[simp] theorem setPc_vreg (s : State) (w : Word) (q : RegIdx) : (s.setPc w).vreg q = s.vreg q := rfl

/-! ### `setDt` -/

@[simp] theorem setDt_v (s : State) (b : Byte) : (s.setDt b).v = s.v := rfl
@[simp] theorem setDt_i (s : State) (b : Byte) : (s.setDt b).i = s.i := rfl
@[simp] theorem setDt_pc (s : State) (b : Byte) : (s.setDt b).pc = s.pc := rfl
@[simp] theorem setDt_stack (s : State) (b : Byte) : (s.setDt b).stack = s.stack := rfl
@[simp] theorem setDt_dt (s : State) (b : Byte) : (s.setDt b).dt = b := rfl
@[simp] theorem setDt_st (s : State) (b : Byte) : (s.setDt b).st = s.st := rfl
@[simp] theorem setDt_disp (s : State) (b : Byte) : (s.setDt b).disp = s.disp := rfl
@[simp] theorem setDt_mem (s : State) (b : Byte) : (s.setDt b).mem = s.mem := rfl
@[simp] theorem setDt_runState (s : State) (b : Byte) : (s.setDt b).runState = s.runState := rfl
@[simp] theorem setDt_waitReg (s : State) (b : Byte) : (s.setDt b).waitReg = s.waitReg := rfl
@[simp] theorem setDt_keyLatch (s : State) (b : Byte) : (s.setDt b).keyLatch = s.keyLatch := rfl
@[simp] theorem setDt_displayDirty (s : State) (b : Byte) : (s.setDt b).displayDirty = s.displayDirty := rfl
@[simp] theorem setDt_haltCause (s : State) (b : Byte) : (s.setDt b).haltCause = s.haltCause := rfl
@[simp] theorem setDt_inputs (s : State) (b : Byte) : (s.setDt b).inputs = s.inputs := rfl
@[simp] theorem setDt_effects (s : State) (b : Byte) : (s.setDt b).effects = s.effects := rfl
@[simp] theorem setDt_vreg (s : State) (b : Byte) (q : RegIdx) : (s.setDt b).vreg q = s.vreg q := rfl

/-! ### `setSt` -/

@[simp] theorem setSt_v (s : State) (b : Byte) : (s.setSt b).v = s.v := rfl
@[simp] theorem setSt_i (s : State) (b : Byte) : (s.setSt b).i = s.i := rfl
@[simp] theorem setSt_pc (s : State) (b : Byte) : (s.setSt b).pc = s.pc := rfl
@[simp] theorem setSt_stack (s : State) (b : Byte) : (s.setSt b).stack = s.stack := rfl
@[simp] theorem setSt_dt (s : State) (b : Byte) : (s.setSt b).dt = s.dt := rfl
@[simp] theorem setSt_st (s : State) (b : Byte) : (s.setSt b).st = b := rfl
@[simp] theorem setSt_disp (s : State) (b : Byte) : (s.setSt b).disp = s.disp := rfl
@[simp] theorem setSt_mem (s : State) (b : Byte) : (s.setSt b).mem = s.mem := rfl
@[simp] theorem setSt_runState (s : State) (b : Byte) : (s.setSt b).runState = s.runState := rfl
@[simp] theorem setSt_waitReg (s : State) (b : Byte) : (s.setSt b).waitReg = s.waitReg := rfl
@[simp] theorem setSt_keyLatch (s : State) (b : Byte) : (s.setSt b).keyLatch = s.keyLatch := rfl
@[simp] theorem setSt_displayDirty (s : State) (b : Byte) : (s.setSt b).displayDirty = s.displayDirty := rfl
@[simp] theorem setSt_haltCause (s : State) (b : Byte) : (s.setSt b).haltCause = s.haltCause := rfl
@[simp] theorem setSt_inputs (s : State) (b : Byte) : (s.setSt b).inputs = s.inputs := rfl
@[simp] theorem setSt_effects (s : State) (b : Byte) : (s.setSt b).effects = s.effects := rfl
@[simp] theorem setSt_vreg (s : State) (b : Byte) (q : RegIdx) : (s.setSt b).vreg q = s.vreg q := rfl

/-! ### `setDisp` -/

@[simp] theorem setDisp_v (s : State) (d : Frame) : (s.setDisp d).v = s.v := rfl
@[simp] theorem setDisp_i (s : State) (d : Frame) : (s.setDisp d).i = s.i := rfl
@[simp] theorem setDisp_pc (s : State) (d : Frame) : (s.setDisp d).pc = s.pc := rfl
@[simp] theorem setDisp_stack (s : State) (d : Frame) : (s.setDisp d).stack = s.stack := rfl
@[simp] theorem setDisp_dt (s : State) (d : Frame) : (s.setDisp d).dt = s.dt := rfl
@[simp] theorem setDisp_st (s : State) (d : Frame) : (s.setDisp d).st = s.st := rfl
@[simp] theorem setDisp_disp (s : State) (d : Frame) : (s.setDisp d).disp = d := rfl
@[simp] theorem setDisp_mem (s : State) (d : Frame) : (s.setDisp d).mem = s.mem := rfl
@[simp] theorem setDisp_runState (s : State) (d : Frame) : (s.setDisp d).runState = s.runState := rfl
@[simp] theorem setDisp_waitReg (s : State) (d : Frame) : (s.setDisp d).waitReg = s.waitReg := rfl
@[simp] theorem setDisp_keyLatch (s : State) (d : Frame) : (s.setDisp d).keyLatch = s.keyLatch := rfl
@[simp] theorem setDisp_displayDirty (s : State) (d : Frame) : (s.setDisp d).displayDirty = true := rfl
@[simp] theorem setDisp_haltCause (s : State) (d : Frame) : (s.setDisp d).haltCause = s.haltCause := rfl
@[simp] theorem setDisp_inputs (s : State) (d : Frame) : (s.setDisp d).inputs = s.inputs := rfl
@[simp] theorem setDisp_effects (s : State) (d : Frame) : (s.setDisp d).effects = s.effects := rfl
@[simp] theorem setDisp_vreg (s : State) (d : Frame) (q : RegIdx) : (s.setDisp d).vreg q = s.vreg q := rfl

/-! ### `setMem` -/

@[simp] theorem setMem_v (s : State) (m : Memory) : (s.setMem m).v = s.v := rfl
@[simp] theorem setMem_i (s : State) (m : Memory) : (s.setMem m).i = s.i := rfl
@[simp] theorem setMem_pc (s : State) (m : Memory) : (s.setMem m).pc = s.pc := rfl
@[simp] theorem setMem_stack (s : State) (m : Memory) : (s.setMem m).stack = s.stack := rfl
@[simp] theorem setMem_dt (s : State) (m : Memory) : (s.setMem m).dt = s.dt := rfl
@[simp] theorem setMem_st (s : State) (m : Memory) : (s.setMem m).st = s.st := rfl
@[simp] theorem setMem_disp (s : State) (m : Memory) : (s.setMem m).disp = s.disp := rfl
@[simp] theorem setMem_mem (s : State) (m : Memory) : (s.setMem m).mem = m := rfl
@[simp] theorem setMem_runState (s : State) (m : Memory) : (s.setMem m).runState = s.runState := rfl
@[simp] theorem setMem_waitReg (s : State) (m : Memory) : (s.setMem m).waitReg = s.waitReg := rfl
@[simp] theorem setMem_keyLatch (s : State) (m : Memory) : (s.setMem m).keyLatch = s.keyLatch := rfl
@[simp] theorem setMem_displayDirty (s : State) (m : Memory) : (s.setMem m).displayDirty = s.displayDirty := rfl
@[simp] theorem setMem_haltCause (s : State) (m : Memory) : (s.setMem m).haltCause = s.haltCause := rfl
@[simp] theorem setMem_inputs (s : State) (m : Memory) : (s.setMem m).inputs = s.inputs := rfl
@[simp] theorem setMem_effects (s : State) (m : Memory) : (s.setMem m).effects = s.effects := rfl
@[simp] theorem setMem_vreg (s : State) (m : Memory) (q : RegIdx) : (s.setMem m).vreg q = s.vreg q := rfl

/-! ### `setStack` -/

@[simp] theorem setStack_v (s : State) (l : List Word) : (s.setStack l).v = s.v := rfl
@[simp] theorem setStack_i (s : State) (l : List Word) : (s.setStack l).i = s.i := rfl
@[simp] theorem setStack_pc (s : State) (l : List Word) : (s.setStack l).pc = s.pc := rfl
@[simp] theorem setStack_stack (s : State) (l : List Word) : (s.setStack l).stack = l := rfl
@[simp] theorem setStack_dt (s : State) (l : List Word) : (s.setStack l).dt = s.dt := rfl
@[simp] theorem setStack_st (s : State) (l : List Word) : (s.setStack l).st = s.st := rfl
@[simp] theorem setStack_disp (s : State) (l : List Word) : (s.setStack l).disp = s.disp := rfl
@[simp] theorem setStack_mem (s : State) (l : List Word) : (s.setStack l).mem = s.mem := rfl
@[simp] theorem setStack_runState (s : State) (l : List Word) : (s.setStack l).runState = s.runState := rfl
@[simp] theorem setStack_waitReg (s : State) (l : List Word) : (s.setStack l).waitReg = s.waitReg := rfl
@[simp] theorem setStack_keyLatch (s : State) (l : List Word) : (s.setStack l).keyLatch = s.keyLatch := rfl
@[simp] theorem setStack_displayDirty (s : State) (l : List Word) : (s.setStack l).displayDirty = s.displayDirty := rfl
@[simp] theorem setStack_haltCause (s : State) (l : List Word) : (s.setStack l).haltCause = s.haltCause := rfl
@[simp] theorem setStack_inputs (s : State) (l : List Word) : (s.setStack l).inputs = s.inputs := rfl
@[simp] theorem setStack_effects (s : State) (l : List Word) : (s.setStack l).effects = s.effects := rfl
@[simp] theorem setStack_vreg (s : State) (l : List Word) (q : RegIdx) : (s.setStack l).vreg q = s.vreg q := rfl

/-! ### `advancePc` -/

@[simp] theorem advancePc_v (s : State) : (s.advancePc).v = s.v := rfl
@[simp] theorem advancePc_i (s : State) : (s.advancePc).i = s.i := rfl
@[simp] theorem advancePc_pc (s : State) : (s.advancePc).pc = s.pc + 2 := rfl
@[simp] theorem advancePc_stack (s : State) : (s.advancePc).stack = s.stack := rfl
@[simp] theorem advancePc_dt (s : State) : (s.advancePc).dt = s.dt := rfl
@[simp] theorem advancePc_st (s : State) : (s.advancePc).st = s.st := rfl
@[simp] theorem advancePc_disp (s : State) : (s.advancePc).disp = s.disp := rfl
@[simp] theorem advancePc_mem (s : State) : (s.advancePc).mem = s.mem := rfl
@[simp] theorem advancePc_runState (s : State) : (s.advancePc).runState = s.runState := rfl
@[simp] theorem advancePc_waitReg (s : State) : (s.advancePc).waitReg = s.waitReg := rfl
@[simp] theorem advancePc_keyLatch (s : State) : (s.advancePc).keyLatch = s.keyLatch := rfl
@[simp] theorem advancePc_displayDirty (s : State) : (s.advancePc).displayDirty = s.displayDirty := rfl
@[simp] theorem advancePc_haltCause (s : State) : (s.advancePc).haltCause = s.haltCause := rfl
@[simp] theorem advancePc_inputs (s : State) : (s.advancePc).inputs = s.inputs := rfl
@[simp] theorem advancePc_effects (s : State) : (s.advancePc).effects = s.effects := rfl
@[simp] theorem advancePc_vreg (s : State) (q : RegIdx) : (s.advancePc).vreg q = s.vreg q := rfl

/-! ### `emit` -/

@[simp] theorem emit_v (s : State) (e : Effect) : (s.emit e).v = s.v := rfl
@[simp] theorem emit_i (s : State) (e : Effect) : (s.emit e).i = s.i := rfl
@[simp] theorem emit_pc (s : State) (e : Effect) : (s.emit e).pc = s.pc := rfl
@[simp] theorem emit_stack (s : State) (e : Effect) : (s.emit e).stack = s.stack := rfl
@[simp] theorem emit_dt (s : State) (e : Effect) : (s.emit e).dt = s.dt := rfl
@[simp] theorem emit_st (s : State) (e : Effect) : (s.emit e).st = s.st := rfl
@[simp] theorem emit_disp (s : State) (e : Effect) : (s.emit e).disp = s.disp := rfl
@[simp] theorem emit_mem (s : State) (e : Effect) : (s.emit e).mem = s.mem := rfl
@[simp] theorem emit_runState (s : State) (e : Effect) : (s.emit e).runState = s.runState := rfl
@[simp] theorem emit_waitReg (s : State) (e : Effect) : (s.emit e).waitReg = s.waitReg := rfl
@[simp] theorem emit_keyLatch (s : State) (e : Effect) : (s.emit e).keyLatch = s.keyLatch := rfl
@[simp] theorem emit_displayDirty (s : State) (e : Effect) : (s.emit e).displayDirty = s.displayDirty := rfl
@[simp] theorem emit_haltCause (s : State) (e : Effect) : (s.emit e).haltCause = s.haltCause := rfl
@[simp] theorem emit_inputs (s : State) (e : Effect) : (s.emit e).inputs = s.inputs := rfl
@[simp] theorem emit_effects (s : State) (e : Effect) : (s.emit e).effects = s.effects ++ [e] := rfl
@[simp] theorem emit_vreg (s : State) (e : Effect) (q : RegIdx) : (s.emit e).vreg q = s.vreg q := rfl

/-! ### `clearEffects` -/

@[simp] theorem clearEffects_v (s : State) : (s.clearEffects).v = s.v := rfl
@[simp] theorem clearEffects_i (s : State) : (s.clearEffects).i = s.i := rfl
@[simp] theorem clearEffects_pc (s : State) : (s.clearEffects).pc = s.pc := rfl
@[simp] theorem clearEffects_stack (s : State) : (s.clearEffects).stack = s.stack := rfl
@[simp] theorem clearEffects_dt (s : State) : (s.clearEffects).dt = s.dt := rfl
@[simp] theorem clearEffects_st (s : State) : (s.clearEffects).st = s.st := rfl
@[simp] theorem clearEffects_disp (s : State) : (s.clearEffects).disp = s.disp := rfl
@[simp] theorem clearEffects_mem (s : State) : (s.clearEffects).mem = s.mem := rfl
@[simp] theorem clearEffects_runState (s : State) : (s.clearEffects).runState = s.runState := rfl
@[simp] theorem clearEffects_waitReg (s : State) : (s.clearEffects).waitReg = s.waitReg := rfl
@[simp] theorem clearEffects_keyLatch (s : State) : (s.clearEffects).keyLatch = s.keyLatch := rfl
@[simp] theorem clearEffects_displayDirty (s : State) : (s.clearEffects).displayDirty = s.displayDirty := rfl
@[simp] theorem clearEffects_haltCause (s : State) : (s.clearEffects).haltCause = s.haltCause := rfl
@[simp] theorem clearEffects_inputs (s : State) : (s.clearEffects).inputs = s.inputs := rfl
@[simp] theorem clearEffects_effects (s : State) : (s.clearEffects).effects = [] := rfl
@[simp] theorem clearEffects_vreg (s : State) (q : RegIdx) : (s.clearEffects).vreg q = s.vreg q := rfl

/-! ### `raise` -/

@[simp] theorem raise_v (s : State) (f : Fatal) : (s.raise f).v = s.v := rfl
@[simp] theorem raise_i (s : State) (f : Fatal) : (s.raise f).i = s.i := rfl
@[simp] theorem raise_pc (s : State) (f : Fatal) : (s.raise f).pc = s.pc := rfl
@[simp] theorem raise_stack (s : State) (f : Fatal) : (s.raise f).stack = s.stack := rfl
@[simp] theorem raise_dt (s : State) (f : Fatal) : (s.raise f).dt = s.dt := rfl
@[simp] theorem raise_st (s : State) (f : Fatal) : (s.raise f).st = s.st := rfl
@[simp] theorem raise_disp (s : State) (f : Fatal) : (s.raise f).disp = s.disp := rfl
@[simp] theorem raise_mem (s : State) (f : Fatal) : (s.raise f).mem = s.mem := rfl
@[simp] theorem raise_runState (s : State) (f : Fatal) : (s.raise f).runState = .halted := rfl
@[simp] theorem raise_waitReg (s : State) (f : Fatal) : (s.raise f).waitReg = s.waitReg := rfl
@[simp] theorem raise_keyLatch (s : State) (f : Fatal) : (s.raise f).keyLatch = s.keyLatch := rfl
@[simp] theorem raise_displayDirty (s : State) (f : Fatal) : (s.raise f).displayDirty = s.displayDirty := rfl
@[simp] theorem raise_haltCause (s : State) (f : Fatal) : (s.raise f).haltCause = some f.cause := rfl
@[simp] theorem raise_inputs (s : State) (f : Fatal) : (s.raise f).inputs = s.inputs := rfl
@[simp] theorem raise_effects (s : State) (f : Fatal) : (s.raise f).effects = s.effects ++ [.fatal f] := rfl
@[simp] theorem raise_vreg (s : State) (f : Fatal) (q : RegIdx) : (s.raise f).vreg q = s.vreg q := rfl

/-! ### `sampledKeys` -/

@[simp] theorem sampledKeys_v (s : State) : (s.sampledKeys).v = s.v := rfl
@[simp] theorem sampledKeys_i (s : State) : (s.sampledKeys).i = s.i := rfl
@[simp] theorem sampledKeys_pc (s : State) : (s.sampledKeys).pc = s.pc := rfl
@[simp] theorem sampledKeys_stack (s : State) : (s.sampledKeys).stack = s.stack := rfl
@[simp] theorem sampledKeys_dt (s : State) : (s.sampledKeys).dt = s.dt := rfl
@[simp] theorem sampledKeys_st (s : State) : (s.sampledKeys).st = s.st := rfl
@[simp] theorem sampledKeys_disp (s : State) : (s.sampledKeys).disp = s.disp := rfl
@[simp] theorem sampledKeys_mem (s : State) : (s.sampledKeys).mem = s.mem := rfl
@[simp] theorem sampledKeys_runState (s : State) : (s.sampledKeys).runState = s.runState := rfl
@[simp] theorem sampledKeys_waitReg (s : State) : (s.sampledKeys).waitReg = s.waitReg := rfl
@[simp] theorem sampledKeys_keyLatch (s : State) : (s.sampledKeys).keyLatch = s.keyLatch := rfl
@[simp] theorem sampledKeys_displayDirty (s : State) : (s.sampledKeys).displayDirty = s.displayDirty := rfl
@[simp] theorem sampledKeys_haltCause (s : State) : (s.sampledKeys).haltCause = s.haltCause := rfl
@[simp] theorem sampledKeys_inputs (s : State) : (s.sampledKeys).inputs = ⟨none, s.inputs.rnd, s.inputs.samples + 1⟩ := rfl
@[simp] theorem sampledKeys_effects (s : State) : (s.sampledKeys).effects = s.effects := rfl
@[simp] theorem sampledKeys_vreg (s : State) (q : RegIdx) : (s.sampledKeys).vreg q = s.vreg q := rfl

/-! ### `sampledRnd` -/

@[simp] theorem sampledRnd_v (s : State) : (s.sampledRnd).v = s.v := rfl
@[simp] theorem sampledRnd_i (s : State) : (s.sampledRnd).i = s.i := rfl
@[simp] theorem sampledRnd_pc (s : State) : (s.sampledRnd).pc = s.pc := rfl
@[simp] theorem sampledRnd_stack (s : State) : (s.sampledRnd).stack = s.stack := rfl
@[simp] theorem sampledRnd_dt (s : State) : (s.sampledRnd).dt = s.dt := rfl
@[simp] theorem sampledRnd_st (s : State) : (s.sampledRnd).st = s.st := rfl
@[simp] theorem sampledRnd_disp (s : State) : (s.sampledRnd).disp = s.disp := rfl
@[simp] theorem sampledRnd_mem (s : State) : (s.sampledRnd).mem = s.mem := rfl
@[simp] theorem sampledRnd_runState (s : State) : (s.sampledRnd).runState = s.runState := rfl
@[simp] theorem sampledRnd_waitReg (s : State) : (s.sampledRnd).waitReg = s.waitReg := rfl
@[simp] theorem sampledRnd_keyLatch (s : State) : (s.sampledRnd).keyLatch = s.keyLatch := rfl
@[simp] theorem sampledRnd_displayDirty (s : State) : (s.sampledRnd).displayDirty = s.displayDirty := rfl
@[simp] theorem sampledRnd_haltCause (s : State) : (s.sampledRnd).haltCause = s.haltCause := rfl
@[simp] theorem sampledRnd_inputs (s : State) : (s.sampledRnd).inputs = ⟨s.inputs.keysHeld, none, s.inputs.samples + 1⟩ := rfl
@[simp] theorem sampledRnd_effects (s : State) : (s.sampledRnd).effects = s.effects := rfl
@[simp] theorem sampledRnd_vreg (s : State) (q : RegIdx) : (s.sampledRnd).vreg q = s.vreg q := rfl

/-! ### `beginWait` -/

@[simp] theorem beginWait_v (s : State) (x : RegIdx) : (s.beginWait x).v = s.v := rfl
@[simp] theorem beginWait_i (s : State) (x : RegIdx) : (s.beginWait x).i = s.i := rfl
@[simp] theorem beginWait_pc (s : State) (x : RegIdx) : (s.beginWait x).pc = s.pc := rfl
@[simp] theorem beginWait_stack (s : State) (x : RegIdx) : (s.beginWait x).stack = s.stack := rfl
@[simp] theorem beginWait_dt (s : State) (x : RegIdx) : (s.beginWait x).dt = s.dt := rfl
@[simp] theorem beginWait_st (s : State) (x : RegIdx) : (s.beginWait x).st = s.st := rfl
@[simp] theorem beginWait_disp (s : State) (x : RegIdx) : (s.beginWait x).disp = s.disp := rfl
@[simp] theorem beginWait_mem (s : State) (x : RegIdx) : (s.beginWait x).mem = s.mem := rfl
@[simp] theorem beginWait_runState (s : State) (x : RegIdx) : (s.beginWait x).runState = .awaitingKey := rfl
@[simp] theorem beginWait_waitReg (s : State) (x : RegIdx) : (s.beginWait x).waitReg = x := rfl
@[simp] theorem beginWait_keyLatch (s : State) (x : RegIdx) : (s.beginWait x).keyLatch = none := rfl
@[simp] theorem beginWait_displayDirty (s : State) (x : RegIdx) : (s.beginWait x).displayDirty = s.displayDirty := rfl
@[simp] theorem beginWait_haltCause (s : State) (x : RegIdx) : (s.beginWait x).haltCause = s.haltCause := rfl
@[simp] theorem beginWait_inputs (s : State) (x : RegIdx) : (s.beginWait x).inputs = s.inputs := rfl
@[simp] theorem beginWait_effects (s : State) (x : RegIdx) : (s.beginWait x).effects = s.effects := rfl
@[simp] theorem beginWait_vreg (s : State) (x : RegIdx) (q : RegIdx) : (s.beginWait x).vreg q = s.vreg q := rfl

/-! ### `tick` -/

@[simp] theorem tick_v (s : State) : (s.tick).v = s.v := rfl
@[simp] theorem tick_i (s : State) : (s.tick).i = s.i := rfl
@[simp] theorem tick_pc (s : State) : (s.tick).pc = s.pc := rfl
@[simp] theorem tick_stack (s : State) : (s.tick).stack = s.stack := rfl
@[simp] theorem tick_dt (s : State) : (s.tick).dt = if s.dt = 0 then 0 else s.dt - 1 := rfl
@[simp] theorem tick_st (s : State) : (s.tick).st = if s.st = 0 then 0 else s.st - 1 := rfl
@[simp] theorem tick_disp (s : State) : (s.tick).disp = s.disp := rfl
@[simp] theorem tick_mem (s : State) : (s.tick).mem = s.mem := rfl
@[simp] theorem tick_runState (s : State) : (s.tick).runState = s.runState := rfl
@[simp] theorem tick_waitReg (s : State) : (s.tick).waitReg = s.waitReg := rfl
@[simp] theorem tick_keyLatch (s : State) : (s.tick).keyLatch = s.keyLatch := rfl
@[simp] theorem tick_displayDirty (s : State) : (s.tick).displayDirty = s.displayDirty := rfl
@[simp] theorem tick_haltCause (s : State) : (s.tick).haltCause = s.haltCause := rfl
@[simp] theorem tick_inputs (s : State) : (s.tick).inputs = s.inputs := rfl
@[simp] theorem tick_effects (s : State) : (s.tick).effects = s.effects := rfl
@[simp] theorem tick_vreg (s : State) (q : RegIdx) : (s.tick).vreg q = s.vreg q := rfl

/-! ### `reportKey` -/

@[simp] theorem reportKey_v (s : State) (k : Nibble) : (s.reportKey k).v = s.v := rfl
@[simp] theorem reportKey_i (s : State) (k : Nibble) : (s.reportKey k).i = s.i := rfl
@[simp] theorem reportKey_pc (s : State) (k : Nibble) : (s.reportKey k).pc = s.pc := rfl
@[simp] theorem reportKey_stack (s : State) (k : Nibble) : (s.reportKey k).stack = s.stack := rfl
@[simp] theorem reportKey_dt (s : State) (k : Nibble) : (s.reportKey k).dt = s.dt := rfl
@[simp] theorem reportKey_st (s : State) (k : Nibble) : (s.reportKey k).st = s.st := rfl
@[simp] theorem reportKey_disp (s : State) (k : Nibble) : (s.reportKey k).disp = s.disp := rfl
@[simp] theorem reportKey_mem (s : State) (k : Nibble) : (s.reportKey k).mem = s.mem := rfl
@[simp] theorem reportKey_runState (s : State) (k : Nibble) : (s.reportKey k).runState = s.runState := rfl
@[simp] theorem reportKey_waitReg (s : State) (k : Nibble) : (s.reportKey k).waitReg = s.waitReg := rfl
@[simp] theorem reportKey_keyLatch (s : State) (k : Nibble) : (s.reportKey k).keyLatch = some k := rfl
@[simp] theorem reportKey_displayDirty (s : State) (k : Nibble) : (s.reportKey k).displayDirty = s.displayDirty := rfl
@[simp] theorem reportKey_haltCause (s : State) (k : Nibble) : (s.reportKey k).haltCause = s.haltCause := rfl
@[simp] theorem reportKey_inputs (s : State) (k : Nibble) : (s.reportKey k).inputs = s.inputs := rfl
@[simp] theorem reportKey_effects (s : State) (k : Nibble) : (s.reportKey k).effects = s.effects := rfl
@[simp] theorem reportKey_vreg (s : State) (k : Nibble) (q : RegIdx) : (s.reportKey k).vreg q = s.vreg q := rfl

/-! ### `clearDirty` -/

@[simp] theorem clearDirty_v (s : State) : (s.clearDirty).v = s.v := rfl
@[simp] theorem clearDirty_i (s : State) : (s.clearDirty).i = s.i := rfl
@[simp] theorem clearDirty_pc (s : State) : (s.clearDirty).pc = s.pc := rfl
@[simp] theorem clearDirty_stack (s : State) : (s.clearDirty).stack = s.stack := rfl
@[simp] theorem clearDirty_dt (s : State) : (s.clearDirty).dt = s.dt := rfl
@[simp] theorem clearDirty_st (s : State) : (s.clearDirty).st = s.st := rfl
@[simp] theorem clearDirty_disp (s : State) : (s.clearDirty).disp = s.disp := rfl
@[simp] theorem clearDirty_mem (s : State) : (s.clearDirty).mem = s.mem := rfl
@[simp] theorem clearDirty_runState (s : State) : (s.clearDirty).runState = s.runState := rfl
@[simp] theorem clearDirty_waitReg (s : State) : (s.clearDirty).waitReg = s.waitReg := rfl
@[simp] theorem clearDirty_keyLatch (s : State) : (s.clearDirty).keyLatch = s.keyLatch := rfl
@[simp] theorem clearDirty_displayDirty (s : State) : (s.clearDirty).displayDirty = false := rfl
@[simp] theorem clearDirty_haltCause (s : State) : (s.clearDirty).haltCause = s.haltCause := rfl
@[simp] theorem clearDirty_inputs (s : State) : (s.clearDirty).inputs = s.inputs := rfl
@[simp] theorem clearDirty_effects (s : State) : (s.clearDirty).effects = s.effects := rfl
@[simp] theorem clearDirty_vreg (s : State) (q : RegIdx) : (s.clearDirty).vreg q = s.vreg q := rfl

/-! ### `present` -/

@[simp] theorem present_v (s : State) (keys : BitVec 16) (r : Byte) : (s.present keys r).v = s.v := rfl
@[simp] theorem present_i (s : State) (keys : BitVec 16) (r : Byte) : (s.present keys r).i = s.i := rfl
@[simp] theorem present_pc (s : State) (keys : BitVec 16) (r : Byte) : (s.present keys r).pc = s.pc := rfl
@[simp] theorem present_stack (s : State) (keys : BitVec 16) (r : Byte) : (s.present keys r).stack = s.stack := rfl
@[simp] theorem present_dt (s : State) (keys : BitVec 16) (r : Byte) : (s.present keys r).dt = s.dt := rfl
@[simp] theorem present_st (s : State) (keys : BitVec 16) (r : Byte) : (s.present keys r).st = s.st := rfl
@[simp] theorem present_disp (s : State) (keys : BitVec 16) (r : Byte) : (s.present keys r).disp = s.disp := rfl
@[simp] theorem present_mem (s : State) (keys : BitVec 16) (r : Byte) : (s.present keys r).mem = s.mem := rfl
@[simp] theorem present_runState (s : State) (keys : BitVec 16) (r : Byte) : (s.present keys r).runState = s.runState := rfl
@[simp] theorem present_waitReg (s : State) (keys : BitVec 16) (r : Byte) : (s.present keys r).waitReg = s.waitReg := rfl
@[simp] theorem present_keyLatch (s : State) (keys : BitVec 16) (r : Byte) : (s.present keys r).keyLatch = s.keyLatch := rfl
@[simp] theorem present_displayDirty (s : State) (keys : BitVec 16) (r : Byte) : (s.present keys r).displayDirty = s.displayDirty := rfl
@[simp] theorem present_haltCause (s : State) (keys : BitVec 16) (r : Byte) : (s.present keys r).haltCause = s.haltCause := rfl
@[simp] theorem present_inputs (s : State) (keys : BitVec 16) (r : Byte) : (s.present keys r).inputs = ⟨some keys, some r, s.inputs.samples⟩ := rfl
@[simp] theorem present_effects (s : State) (keys : BitVec 16) (r : Byte) : (s.present keys r).effects = s.effects := rfl
@[simp] theorem present_vreg (s : State) (keys : BitVec 16) (r : Byte) (q : RegIdx) : (s.present keys r).vreg q = s.vreg q := rfl

/-! ### `dropInputs` -/

@[simp] theorem dropInputs_v (s : State) : (s.dropInputs).v = s.v := rfl
@[simp] theorem dropInputs_i (s : State) : (s.dropInputs).i = s.i := rfl
@[simp] theorem dropInputs_pc (s : State) : (s.dropInputs).pc = s.pc := rfl
@[simp] theorem dropInputs_stack (s : State) : (s.dropInputs).stack = s.stack := rfl
@[simp] theorem dropInputs_dt (s : State) : (s.dropInputs).dt = s.dt := rfl
@[simp] theorem dropInputs_st (s : State) : (s.dropInputs).st = s.st := rfl
@[simp] theorem dropInputs_disp (s : State) : (s.dropInputs).disp = s.disp := rfl
@[simp] theorem dropInputs_mem (s : State) : (s.dropInputs).mem = s.mem := rfl
@[simp] theorem dropInputs_runState (s : State) : (s.dropInputs).runState = s.runState := rfl
@[simp] theorem dropInputs_waitReg (s : State) : (s.dropInputs).waitReg = s.waitReg := rfl
@[simp] theorem dropInputs_keyLatch (s : State) : (s.dropInputs).keyLatch = s.keyLatch := rfl
@[simp] theorem dropInputs_displayDirty (s : State) : (s.dropInputs).displayDirty = s.displayDirty := rfl
@[simp] theorem dropInputs_haltCause (s : State) : (s.dropInputs).haltCause = s.haltCause := rfl
@[simp] theorem dropInputs_inputs (s : State) : (s.dropInputs).inputs = ⟨none, none, s.inputs.samples⟩ := rfl
@[simp] theorem dropInputs_effects (s : State) : (s.dropInputs).effects = s.effects := rfl
@[simp] theorem dropInputs_vreg (s : State) (q : RegIdx) : (s.dropInputs).vreg q = s.vreg q := rfl

end Sys2Proof.Machine
end

