-- ==== Sys2Proof/Laws/Draw.lean ====
section
/-! SUPPORT. Drawing (R151): what `Canvas.drawRows` does to each pixel, and when it collides. -/

namespace Sys2Proof.Machine

/-- Two pixels of the display have different indices (R32). -/
theorem pixelIndex_inj {x y a b : Nat} (hx : x < Config.dispWidth) (ha : a < Config.dispWidth) :
    pixelIndex x y = pixelIndex a b ↔ a = x ∧ b = y := by
  simp only [pixelIndex, Config.dispWidth] at *; omega

/-- The index of a pixel is one of the 2048 bits (R32). -/
theorem pixelIndex_lt {x y : Nat} (hx : x < Config.dispWidth) (hy : y < Config.dispHeight) : pixelIndex x y < 2048 := by
  simp only [pixelIndex, Config.dispWidth, Config.dispHeight] at *; omega

/-- One plotted bit flips its own pixel of the display, and no other. -/
theorem plot_pixel (c : Canvas) (x y : Nat) {a b : Nat} (ha : a < Config.dispWidth) (hb : b < Config.dispHeight) :
    pixel (c.plot x y).disp a b = (pixel c.disp a b ^^ decide (a = x ∧ b = y)) := by
  unfold Canvas.plot
  by_cases h : x < Config.dispWidth ∧ y < Config.dispHeight
  · have hi := pixelIndex_lt h.1 h.2
    simp only [if_pos h, pixel, BitVec.getLsbD_xor, BitVec.getLsbD_twoPow, hi, decide_true, Bool.true_and,
      pixelIndex_inj h.1 ha]
  · have hn : ¬(a = x ∧ b = y) := by rintro ⟨rfl, rfl⟩; exact h ⟨ha, hb⟩
    simp [if_neg h, hn]

/-- A plotted bit collides iff its pixel is on the display and set. -/
theorem plot_collision (c : Canvas) (x y : Nat) : (c.plot x y).collision = true ↔
    c.collision = true ∨ (x < Config.dispWidth ∧ y < Config.dispHeight ∧ pixel c.disp x y = true) := by
  unfold Canvas.plot
  split <;> simp_all

/-- A bit of a sprite row, at column `a`, among the row's first `n` bits. -/
def rowBit (x0 : Nat) (row : Byte) (n a : Nat) : Prop := x0 ≤ a ∧ a < x0 + n ∧ row.getLsbD (7 - (a - x0)) = true

/-- The first `n` bits of a row. -/
def Canvas.drawBits (c : Canvas) (x0 y : Nat) (row : Byte) (n : Nat) : Canvas :=
  (List.range n).foldl (fun c k => if row.getLsbD (7 - k) then c.plot (x0 + k) y else c) c

/-- One more bit of a row. -/
theorem drawBits_succ (c : Canvas) (x0 y : Nat) (row : Byte) (n : Nat) : c.drawBits x0 y row (n + 1) =
    if row.getLsbD (7 - n) then (c.drawBits x0 y row n).plot (x0 + n) y else c.drawBits x0 y row n := by
  simp only [Canvas.drawBits, List.range_succ, List.foldl_append, List.foldl_cons, List.foldl_nil]

/-- One more bit of a row, as a predicate. -/
theorem rowBit_succ (x0 : Nat) (row : Byte) (n a : Nat) :
    rowBit x0 row (n + 1) a ↔ rowBit x0 row n a ∨ (a = x0 + n ∧ row.getLsbD (7 - n) = true) := by
  unfold rowBit
  by_cases h : a = x0 + n
  · subst h; simp
  · constructor
    · rintro ⟨h1, h2, h3⟩; exact .inl ⟨h1, by omega, h3⟩
    · rintro (⟨h1, h2, h3⟩ | ⟨h1, -⟩)
      · exact ⟨h1, by omega, h3⟩
      · exact absurd h1 h

/-- What the first bits of a row do to a pixel. -/
theorem drawBits_pixel (c : Canvas) (x0 y : Nat) (row : Byte) (n : Nat) {a b : Nat} (ha : a < Config.dispWidth)
    (hb : b < Config.dispHeight) :
    (pixel (c.drawBits x0 y row n).disp a b = true) ↔ ((pixel c.disp a b = true) ↔ ¬(b = y ∧ rowBit x0 row n a)) := by
  induction n with
  | zero =>
    have : ¬ rowBit x0 row 0 a := by rintro ⟨h1, h2, -⟩; omega
    simp [Canvas.drawBits, this]
  | succ n ih =>
    rw [drawBits_succ, rowBit_succ]
    by_cases h : row.getLsbD (7 - n) = true
    · rw [if_pos h, plot_pixel _ _ _ ha hb]
      have hx : a = x0 + n → ¬ rowBit x0 row n a := by rintro rfl ⟨-, h, -⟩; omega
      by_cases ha' : a = x0 + n
      · have := hx ha'
        by_cases hb' : b = y <;> simp_all
      · simp [ha', h, ih]
    · simp [h, ih]

/-- When the first bits of a row collide. -/
theorem drawBits_collision (c : Canvas) (x0 y : Nat) (row : Byte) (n : Nat) :
    (c.drawBits x0 y row n).collision = true ↔ c.collision = true ∨
      ∃ a, a < Config.dispWidth ∧ y < Config.dispHeight ∧ rowBit x0 row n a ∧ pixel c.disp a y = true := by
  induction n with
  | zero =>
    have (a : Nat) : ¬ rowBit x0 row 0 a := by rintro ⟨h1, h2, -⟩; omega
    simp [Canvas.drawBits, this]
  | succ n ih =>
    rw [drawBits_succ]
    by_cases h : row.getLsbD (7 - n) = true
    · rw [if_pos h, plot_collision, ih]
      have hp (hx : x0 + n < Config.dispWidth) (hy : y < Config.dispHeight) :
          pixel (c.drawBits x0 y row n).disp (x0 + n) y = true ↔ pixel c.disp (x0 + n) y = true := by
        rw [drawBits_pixel _ _ _ _ _ hx hy]
        have : ¬ rowBit x0 row n (x0 + n) := by rintro ⟨-, h, -⟩; omega
        simp [this]
      constructor
      · rintro ((hc | ⟨a, h1, h2, h3, h4⟩) | ⟨h1, h2, h3⟩)
        · exact .inl hc
        · exact .inr ⟨a, h1, h2, (rowBit_succ ..).mpr (.inl h3), h4⟩
        · exact .inr ⟨x0 + n, h1, h2, (rowBit_succ ..).mpr (.inr ⟨rfl, h⟩), (hp h1 h2).mp h3⟩
      · rintro (hc | ⟨a, h1, h2, h3, h4⟩)
        · exact .inl (.inl hc)
        · rcases (rowBit_succ ..).mp h3 with h3 | ⟨rfl, -⟩
          · exact .inl (.inr ⟨a, h1, h2, h3, h4⟩)
          · exact .inr ⟨h1, h2, (hp h1 h2).mpr h4⟩
    · rw [if_neg h, ih]
      simp [rowBit_succ, h]

/-- A pixel under a sprite is under its first row or under the others. -/
theorem covers_cons (x0 y : Nat) (row : Byte) (rows : List Byte) (a b : Nat) :
    spriteCovers x0 y (row :: rows) a b = true ↔
      (b = y ∧ rowBit x0 row 8 a) ∨ spriteCovers x0 (y + 1) rows a b = true := by
  simp only [spriteCovers, rowBit, Bool.and_eq_true, decide_eq_true_eq]
  by_cases h : b = y
  · subst h
    simp only [Nat.sub_self, List.getD_cons_zero, true_and]
    constructor
    · rintro ⟨⟨h1, h2, -⟩, h3⟩; exact .inl ⟨h1, h2, h3⟩
    · rintro (⟨h1, h2, h3⟩ | ⟨⟨-, -, h⟩, -⟩)
      · exact ⟨⟨h1, h2, le_rfl⟩, h3⟩
      · omega
  · by_cases hy : y + 1 ≤ b
    · obtain ⟨j, rfl⟩ : ∃ j, b = y + 1 + j := ⟨b - (y + 1), by omega⟩
      rw [show y + 1 + j - y = j + 1 by omega, show y + 1 + j - (y + 1) = j by omega]
      simp only [List.getD_cons_succ]
      constructor
      · rintro ⟨⟨h1, h2, -⟩, h3⟩; exact .inr ⟨⟨h1, h2, hy⟩, h3⟩
      · rintro (⟨h1, -⟩ | ⟨⟨h1, h2, -⟩, h3⟩)
        · exact absurd h1 h
        · exact ⟨⟨h1, h2, by omega⟩, h3⟩
    · constructor
      · rintro ⟨⟨-, -, h1⟩, -⟩; omega
      · rintro (⟨h1, -⟩ | ⟨⟨-, -, h1⟩, -⟩)
        · exact absurd h1 h
        · omega

/-- What drawing rows does to a pixel: it is flipped iff a set sprite bit lies on it. -/
theorem drawRows_pixel (c : Canvas) (x0 y0 : Nat) (rows : List Byte) {a b : Nat} (ha : a < Config.dispWidth)
    (hb : b < Config.dispHeight) :
    pixel (c.drawRows x0 y0 rows).disp a b = (pixel c.disp a b ^^ spriteCovers x0 y0 rows a b) := by
  induction rows generalizing c y0 with
  | nil => simp [Canvas.drawRows, spriteCovers]
  | cons row rows ih =>
    rw [Canvas.drawRows, ih]
    have hp := drawBits_pixel c x0 y0 row 8 ha hb
    have hc := covers_cons x0 y0 row rows a b
    have hx : b = y0 → spriteCovers x0 (y0 + 1) rows a b = false := by
      rintro rfl; simp [spriteCovers]
    change (pixel (c.drawBits x0 y0 row 8).disp a b = true ↔ _) at hp
    change (pixel (c.drawBits x0 y0 row 8).disp a b ^^ _) = _
    rw [Bool.eq_iff_iff]
    by_cases hb' : b = y0
    · have := hx hb'
      subst hb'
      simp only [true_and, this, Bool.false_eq_true, or_false] at hc hp
      simp only [this, Bool.xor_false]
      rw [hp, ← hc]
      cases pixel c.disp a b <;> cases spriteCovers x0 b (row :: rows) a b <;> simp
    · simp_all

/-- When drawing rows collides: some set sprite bit lies on a pixel that was set. -/
theorem drawRows_collision (c : Canvas) (x0 y0 : Nat) (rows : List Byte) :
    (c.drawRows x0 y0 rows).collision = true ↔ c.collision = true ∨
      ∃ a b, a < Config.dispWidth ∧ b < Config.dispHeight ∧ spriteCovers x0 y0 rows a b = true ∧
        pixel c.disp a b = true := by
  induction rows generalizing c y0 with
  | nil => simp [Canvas.drawRows, spriteCovers]
  | cons row rows ih =>
    rw [Canvas.drawRows, ih]
    have hcol := drawBits_collision c x0 y0 row 8
    change ((c.drawBits x0 y0 row 8).collision = true ∨ ∃ a b, _ ∧ _ ∧ _ ∧ pixel (c.drawBits x0 y0 row 8).disp a b = true) ↔ _
    have hp {a b : Nat} (ha : a < Config.dispWidth) (hb : b < Config.dispHeight)
        (h : spriteCovers x0 (y0 + 1) rows a b = true) :
        pixel (c.drawBits x0 y0 row 8).disp a b = true ↔ pixel c.disp a b = true := by
      rw [drawBits_pixel _ _ _ _ _ ha hb]
      have : b ≠ y0 := by rintro rfl; simp [spriteCovers] at h
      simp [this]
    rw [hcol]
    constructor
    · rintro ((h | ⟨a, h1, h2, h3, h4⟩) | ⟨a, b, h1, h2, h3, h4⟩)
      · exact .inl h
      · exact .inr ⟨a, y0, h1, h2, (covers_cons ..).mpr (.inl ⟨rfl, h3⟩), h4⟩
      · exact .inr ⟨a, b, h1, h2, (covers_cons ..).mpr (.inr h3), (hp h1 h2 h3).mp h4⟩
    · rintro (h | ⟨a, b, h1, h2, h3, h4⟩)
      · exact .inl (.inl h)
      · rcases (covers_cons ..).mp h3 with ⟨rfl, h5⟩ | h5
        · exact .inl (.inr ⟨a, h1, h2, h5, h4⟩)
        · exact .inr ⟨a, b, h1, h2, h5, (hp h1 h2 h5).mpr h4⟩

/-- A frame is determined by its pixels. -/
theorem frame_ext {d e : Frame} (h : ∀ a b, a < Config.dispWidth → b < Config.dispHeight → pixel d a b = pixel e a b) :
    d = e := by
  apply BitVec.eq_of_getLsbD_eq
  intro k hk
  have := h (k % 64) (k / 64) (Nat.mod_lt _ (by decide)) (by simp only [Config.dispHeight]; omega)
  simpa [pixel, pixelIndex, Config.dispWidth, Nat.div_add_mod'] using this

end Sys2Proof.Machine
end

