-- ==== Sys2Proof/Laws/Memory.lean ====
section
/-! SUPPORT. Memory: the canonical form and what keeps it, a read after a write, and what `MemRead` and `MemWrite` answer. -/

namespace Sys2Proof.Machine

/-- An address that no cell lists reads as unlisted. -/
theorem read_unlisted {m : Memory} {a : Nat} (h : ∀ c ∈ m, c.1 ≠ a) : m.read a = Memory.unlisted a := by
  induction m with
  | nil => rfl
  | cons c m ih =>
    have hc : c.1 ≠ a := h c (by simp)
    simp only [Memory.read, if_neg hc]
    exact ih fun d hd => h d (by simp [hd])

/-- The rest of a canonical memory is canonical. -/
theorem wf_tail {c : Host.Cell} {m : Memory} (h : Memory.wf (c :: m)) : Memory.wf m :=
  ⟨(List.pairwise_cons.mp h.1).2, fun d hd => h.2 d (by simp [hd])⟩

/-- The first cell of a canonical memory has the lowest address. -/
theorem wf_head_lt {c d : Host.Cell} {m : Memory} (h : Memory.wf (c :: m)) (hd : d ∈ m) : c.1 < d.1 :=
  (List.pairwise_cons.mp h.1).1 d hd

/-- A cell of the memory after a write is the written one or one that was there. -/
theorem mem_write {m : Memory} {a : Nat} {b : Byte} {c : Host.Cell} (h : c ∈ m.write a b) :
    c ∈ m ∨ (c = (a, b) ∧ b ≠ Memory.unlisted a) := by
  induction m with
  | nil =>
    simp only [Memory.write] at h
    split at h <;> simp_all
  | cons d m ih =>
    simp only [Memory.write] at h
    split at h
    · split at h <;> simp_all [or_comm]
    · split at h
      · split at h
        · exact .inl (by simp [h])
        · simp only [List.mem_cons] at h ⊢; tauto
      · simp only [List.mem_cons] at h ⊢
        rcases h with h | h
        · exact .inl (.inl h)
        · rcases ih h with h | h
          · exact .inl (.inr h)
          · exact .inr h

/-- A write inside `MEM` keeps the canonical form. -/
theorem wf_write {m : Memory} {a : Nat} {b : Byte} (h : m.wf) (ha : a < Config.memSize) : (m.write a b).wf := by
  refine ⟨?_, fun c hc => ?_⟩
  · induction m with
    | nil => simp only [Memory.write]; split <;> simp
    | cons d m ih =>
      have hd := h.1
      simp only [Memory.write]
      split
      · split
        · exact hd
        · refine List.pairwise_cons.mpr ⟨fun c hc => ?_, hd⟩
          rcases List.mem_cons.mp hc with rfl | hc
          · assumption
          · exact Nat.lt_trans (by assumption) (wf_head_lt h hc)
      · split
        · split
          · exact (List.pairwise_cons.mp hd).2
          · refine List.pairwise_cons.mpr ⟨fun c hc => ?_, (List.pairwise_cons.mp hd).2⟩
            subst_vars; exact (wf_head_lt h hc : d.1 < c.1)
        · refine List.pairwise_cons.mpr ⟨fun c hc => ?_, ih (wf_tail h)⟩
          rcases mem_write hc with hc | ⟨rfl, -⟩
          · exact wf_head_lt h hc
          · show d.1 < a; omega
  · rcases mem_write hc with hc | ⟨rfl, hb⟩
    · exact h.2 c hc
    · exact ⟨ha, hb⟩

/-- A read after a write. -/
theorem read_write {m : Memory} (h : m.wf) (a : Nat) (b : Byte) (k : Nat) :
    (m.write a b).read k = if k = a then b else m.read k := by
  induction m with
  | nil =>
    simp only [Memory.write]
    split <;> (split <;> simp_all [Memory.read, eq_comm])
  | cons d m ih =>
    have ih := ih (wf_tail h)
    simp only [Memory.write]
    split
    case isTrue hlt =>
      split
      · split
        · subst_vars
          refine read_unlisted fun c hc => ?_
          rcases List.mem_cons.mp hc with rfl | hc
          · omega
          · have := wf_head_lt h hc; omega
        · rfl
      · simp [Memory.read, eq_comm]
    case isFalse hlt =>
      split
      case isTrue heq =>
        subst heq
        split
        · split
          · subst_vars
            refine read_unlisted fun c hc => ?_
            have := wf_head_lt h hc; omega
          · simp [Memory.read, eq_comm, *]
        · by_cases hk : d.1 = k
          · simp [Memory.read, hk]
          · simp [Memory.read, hk, Ne.symm hk]
      case isFalse hne =>
        simp only [Memory.read, ih]
        split <;> split <;> simp_all

/-- Writing bytes inside `MEM` keeps the canonical form. -/
theorem wf_writeAll {m : Memory} {a : Nat} {bs : List Byte} (h : m.wf) (ha : a + bs.length ≤ Config.memSize) :
    (m.writeAll a bs).wf := by
  induction bs generalizing m a with
  | nil => exact h
  | cons b bs ih =>
    simp only [List.length_cons] at ha
    exact ih (wf_write h (by omega)) (by omega)

/-- A read after writing bytes inside `MEM`: the byte written there, or what was there. -/
theorem read_writeAll {m : Memory} {a : Nat} {bs : List Byte} (h : m.wf) (ha : a + bs.length ≤ Config.memSize) (k : Nat) :
    (m.writeAll a bs).read k = if a ≤ k ∧ k < a + bs.length then bs.getD (k - a) 0 else m.read k := by
  induction bs generalizing m a with
  | nil => simp [Memory.writeAll]
  | cons b bs ih =>
    simp only [List.length_cons] at ha
    rw [Memory.writeAll, ih (wf_write h (by omega)) (by omega), read_write h]
    by_cases hk : k = a
    · subst hk; simp
    · by_cases hr : a + 1 ≤ k ∧ k < a + 1 + bs.length
      · obtain ⟨j, rfl⟩ : ∃ j, k = a + 1 + j := ⟨k - (a + 1), by omega⟩
        simp only [hr, true_and, if_pos, List.length_cons]
        rw [if_pos ⟨by omega, by omega⟩, show a + 1 + j - a = j + 1 by omega]
        simp
      · rw [if_neg hr, if_neg hk, if_neg (by simp only [List.length_cons]; omega)]

/-- The bounds check as an inequality (R67). -/
theorem inRange_iff {a n : Nat} (hn : 0 < n) : inRange a n = true ↔ a + n ≤ Config.memSize := by
  simp only [inRange, decide_eq_true_eq]; omega

/-- `MemRead` (R68): what it answers, and when. -/
theorem memRead_cases (m : Memory) (a n : Nat) :
    (n ≠ 0 ∧ Config.memSize < a + n ∧ memRead m a n = .error (memFatal a)) ∨
    ((n = 0 ∨ a + n ≤ Config.memSize) ∧ ∃ bs, memRead m a n = .ok bs ∧ bs.length = n ∧
      ∀ k < n, bs.getD k 0 = m.read (a + k)) := by
  unfold memRead
  by_cases hn : n = 0
  · exact .inr ⟨.inl hn, [], by simp [hn]⟩
  · have hi := inRange_iff (a := a) (Nat.pos_of_ne_zero hn)
    rw [if_neg hn]
    by_cases hr : inRange a n = true
    · refine .inr ⟨.inr (hi.mp hr), _, if_pos hr, by simp, fun k hk => ?_⟩
      simp [List.getD, hk]
    · exact .inl ⟨hn, by simp only [hi] at hr; omega, if_neg hr⟩

/-- `MemWrite` (R69): what it answers, and when. -/
theorem memWrite_cases {m : Memory} (h : m.wf) (a : Nat) {bs : List Byte} (hb : bs ≠ []) :
    (Config.memSize < a + bs.length ∧ memWrite m a bs = .error (memFatal a)) ∨
    (a + bs.length ≤ Config.memSize ∧ ∃ t, memWrite m a bs = .ok t ∧ t.wf ∧
      ∀ k, t.read k = if a ≤ k ∧ k < a + bs.length then bs.getD (k - a) 0 else m.read k) := by
  have hi := inRange_iff (a := a) (List.length_pos_iff.mpr hb)
  unfold memWrite
  by_cases hr : inRange a bs.length = true
  · have hr' := hi.mp hr
    exact .inr ⟨hr', _, if_pos hr, wf_writeAll h hr', fun k => read_writeAll h hr' k⟩
  · exact .inl ⟨by simp only [hi] at hr; omega, if_neg hr⟩

end Sys2Proof.Machine
end

