-- ==== Sys2Proof/Laws/Ops.lean ====
section
/-! SUPPORT. One lemma for each shared operation: everything it can do. -/

namespace Sys2Proof.Machine

/-- A rule that may raise always answers a next state: its own, or the fatal entry from the state it began in (R125). -/
theorem orRaise_cases (s : State) (r : Except Fatal State) :
    (∃ t, r = .ok t ∧ orRaise s r = .next t) ∨ (∃ f, r = .error f ∧ orRaise s r = .next (s.raise f)) := by
  cases r with
  | ok t => exact .inl ⟨t, rfl, rfl⟩
  | error f => exact .inr ⟨f, rfl, rfl⟩

/-- A rule that does not raise. -/
@[simp] theorem orRaise_ok (s t : State) : orRaise s (.ok t) = .next t := rfl
/-- A rule that raises. -/
@[simp] theorem orRaise_error (s : State) (f : Fatal) : orRaise s (.error f) = .next (s.raise f) := rfl

/-- What a push answers (R29). -/
theorem push_cases (s : State) (w : Word) :
    (s.sp = Config.stackDepth ∧ s.push w = .error ⟨.stackOverflow, some w.toNat⟩) ∨
    (s.sp ≠ Config.stackDepth ∧ s.push w = .ok (s.setStack (s.stack ++ [w]))) := by
  unfold State.push
  by_cases h : s.sp = Config.stackDepth
  · exact .inl ⟨h, if_pos h⟩
  · exact .inr ⟨h, if_neg h⟩

/-- What a pop answers (R30). -/
theorem pop_cases (s : State) :
    (s.stack = [] ∧ s.pop = .error ⟨.stackUnderflow, none⟩) ∨
    (∃ l w, s.stack = l ++ [w] ∧ s.pop = .ok (w, s.setStack l)) := by
  unfold State.pop
  rcases List.eq_nil_or_concat s.stack with h | ⟨l, w, h⟩
  · exact .inl ⟨h, by rw [h]; rfl⟩
  · rw [List.concat_eq_append] at h
    exact .inr ⟨l, w, h, by simp [h]⟩

/-- What a fetch answers (R124). -/
theorem fetch_cases (s : State) :
    (Config.memSize ≤ s.pc.toNat + 1 ∧ s.fetch = .error (memFatal s.pc.toNat)) ∨
    (s.pc.toNat + 1 < Config.memSize ∧
      s.fetch = .ok (wordOfBytes (s.mem.read s.pc.toNat) (s.mem.read (s.pc.toNat + 1)), s.advancePc)) := by
  have hi : inRange s.pc.toNat 2 = true ↔ s.pc.toNat + 1 < Config.memSize := by
    simp only [inRange, decide_eq_true_eq]; omega
  unfold State.fetch
  by_cases h : inRange s.pc.toNat 2 = true
  · exact .inr ⟨hi.mp h, if_pos h⟩
  · exact .inl ⟨by rw [hi] at h; omega, if_neg h⟩

/-- What a skip does (R163). -/
theorem skipIf_eq (s : State) (c : Bool) : s.skipIf c = s.setPc (if c then s.pc + 2 else s.pc) := by
  cases c <;> rfl

/-- A register after the two writes of a flag-writing instruction: the flag is written last (R193). -/
@[simp] theorem vreg_writeResultFlag (s : State) (x q : RegIdx) (r f : Byte) :
    (s.writeResultFlag x r f).vreg q = if q = 0xF#4 then f else if q = x then r else s.vreg q := by
  simp only [State.writeResultFlag, vreg_setV]

/-- The two writes change the register file only. -/
theorem writeResultFlag_frame (s : State) (x : RegIdx) (r f : Byte) :
    s.writeResultFlag x r f = { s with v := (s.writeResultFlag x r f).v } := rfl

/-- A register after a load of ascending registers (R215). -/
theorem vreg_loadRegs (s : State) (k : RegIdx) (bs : List Byte) (h : k.toNat + bs.length ≤ 16) (q : RegIdx) :
    (s.loadRegs k bs).vreg q =
      if k.toNat ≤ q.toNat ∧ q.toNat < k.toNat + bs.length then bs.getD (q.toNat - k.toNat) 0 else s.vreg q := by
  induction bs generalizing s k with
  | nil => simp [State.loadRegs]
  | cons b bs ih =>
    simp only [List.length_cons] at h
    by_cases hz : bs = []
    · subst hz
      simp only [State.loadRegs, vreg_setV, List.length_cons, List.length_nil]
      by_cases hq : q = k
      · subst hq; simp
      · have : q.toNat ≠ k.toNat := fun e => hq (BitVec.eq_of_toNat_eq e)
        rw [if_neg hq, if_neg (by omega)]
    · have hlen := List.length_pos_iff.mpr hz
      have hk : (k + 1).toNat = k.toNat + 1 := by
        rw [BitVec.toNat_add]; simp; omega
      rw [State.loadRegs, ih _ _ (by omega), hk, vreg_setV]
      by_cases hq : q = k
      · subst hq
        simp
      · have : q.toNat ≠ k.toNat := fun e => hq (BitVec.eq_of_toNat_eq e)
        by_cases hr : k.toNat + 1 ≤ q.toNat ∧ q.toNat < k.toNat + 1 + bs.length
        · rw [if_pos hr, if_pos (by simp only [List.length_cons]; omega),
            show q.toNat - k.toNat = (q.toNat - (k.toNat + 1)) + 1 by omega, List.getD_cons_succ]
        · rw [if_neg hr, if_neg hq, if_neg (by simp only [List.length_cons]; omega)]

/-- A load of registers changes the register file only. -/
theorem loadRegs_frame (s : State) (k : RegIdx) (bs : List Byte) :
    s.loadRegs k bs = { s with v := (s.loadRegs k bs).v } := by
  induction bs generalizing s k with
  | nil => rfl
  | cons b bs ih => exact (ih (s.setV k b) (k + 1)).trans rfl

/-- The register range has one byte a register, in ascending order (R214). -/
theorem regRange_length (s : State) (x : RegIdx) : (s.regRange x).length = x.toNat + 1 := by
  have := x.isLt
  simp [State.regRange]; omega

/-- The byte of a register in the register range (R214). -/
theorem regRange_getD (s : State) (x q : RegIdx) (h : q.toNat ≤ x.toNat) : (s.regRange x).getD q.toNat 0 = s.vreg q := by
  have hq := q.isLt
  have hl : q.toNat < (s.regRange x).length := by rw [regRange_length]; omega
  rw [List.getD_eq_getElem _ _ hl]
  simp [State.regRange, State.vreg]

/-- What `LD F` does at each setting of FONT_INDEX_OOR (R212, D13). -/
theorem loadFontAddress_cases (s : State) (oor : Config.FontIndexOor) (x : RegIdx) :
    (((s.vreg x).toNat ≤ 15 ∨ oor = .formula) ∧ s.loadFontAddress oor x = .next (s.setI (fontAddress (s.vreg x)))) ∨
    (15 < (s.vreg x).toNat ∧ oor = .refuse ∧
      s.loadFontAddress oor x = .refused (.fontIndexOutOfRange (s.vreg x))) := by
  cases oor with
  | formula => exact .inl ⟨.inr rfl, rfl⟩
  | refuse =>
    by_cases h : (s.vreg x).toNat ≤ 15
    · exact .inl ⟨.inl h, if_pos (decide_eq_true h)⟩
    · exact .inr ⟨by omega, rfl, if_neg (by simpa [fontIndexTaken] using h)⟩

/-- The glyph's address, which does not wrap (R212). -/
theorem fontAddress_toNat (b : Byte) : (fontAddress b).toNat = Config.fontBase + 5 * b.toNat := by
  have := b.isLt
  simp only [fontAddress, Config.fontBase, BitVec.toNat_ofNat]; omega

end Sys2Proof.Machine
end

