-- ==== Sys2Proof/Laws/Unknown.lean ====
section
/-! SUPPORT. The decoder on the UNKNOWN space (R100): a word that selects no row of the opcode map decodes to `.unknown`. -/

namespace Sys2Proof

/-- A word of the UNKNOWN space misses every row of the map. -/
theorem unknown_misses {w : Word} (h : isUnknownWord w = true) {r : OpcodeRow} (hr : r ∈ opcodeRows) :
    w &&& r.mask ≠ r.pattern := by
  simpa [OpcodeRow.selects] using List.all_eq_true.mp h r hr

theorem unknown_fam {w : Word} (h : isUnknownWord w = true) {k : OpKind} {p : Word}
    (hr : ⟨k, p, 0xF000⟩ ∈ opcodeRows) {f : Nibble} (hp : f.setWidth 16 <<< 12 = p) : famOf w ≠ f := fun e =>
  unknown_misses h hr ((and_F000 w).trans (by rw [e, hp]))

theorem unknown_fam_n {w : Word} (h : isUnknownWord w = true) {k : OpKind} {p : Word}
    (hr : ⟨k, p, 0xF00F⟩ ∈ opcodeRows) {f n : Nibble} (hp : f.setWidth 16 <<< 12 ||| n.setWidth 16 = p)
    (hf : famOf w = f) : nOf w ≠ n := fun e =>
  unknown_misses h hr ((and_F00F w).trans (by rw [hf, e, hp]))

theorem unknown_fam_nn {w : Word} (h : isUnknownWord w = true) {k : OpKind} {p : Word}
    (hr : ⟨k, p, 0xF0FF⟩ ∈ opcodeRows) {f : Nibble} {nn : Byte}
    (hp : f.setWidth 16 <<< 12 ||| nn.setWidth 16 = p) (hf : famOf w = f) : nnOf w ≠ nn := fun e =>
  unknown_misses h hr ((and_F0FF w).trans (by rw [hf, e, hp]))

theorem unknown_whole {w : Word} (h : isUnknownWord w = true) {k : OpKind} {p : Word}
    (hr : ⟨k, p, 0xFFFF⟩ ∈ opcodeRows) : w ≠ p := fun e =>
  unknown_misses h hr ((and_FFFF w).trans e)

theorem decodeFam0_unknown {w : Word} (h : isUnknownWord w = true) : decodeFam0 w = .unknown w := by
  have h1 := unknown_whole h (k := .cls) (p := 0x00E0) (by decide)
  have h2 := unknown_whole h (k := .ret) (p := 0x00EE) (by decide)
  exact (if_neg h1).trans (if_neg h2)

theorem decodeFam8_unknown {w : Word} (h : isUnknownWord w = true) (hf : famOf w = 0x8#4) :
    decodeFam8 w = .unknown w := by
  have n (k p) (n : Nibble) (hr : ⟨k, p, 0xF00F⟩ ∈ opcodeRows) (hp : (0x8#4).setWidth 16 <<< 12 ||| n.setWidth 16 = p) :
      nOf w ≠ n := unknown_fam_n h hr hp hf
  have h0 := n .ldReg 0x8000 0x0 (by decide) (by decide)
  have h1 := n .orReg 0x8001 0x1 (by decide) (by decide)
  have h2 := n .andReg 0x8002 0x2 (by decide) (by decide)
  have h3 := n .xorReg 0x8003 0x3 (by decide) (by decide)
  have h4 := n .addReg 0x8004 0x4 (by decide) (by decide)
  have h5 := n .subReg 0x8005 0x5 (by decide) (by decide)
  have h6 := n .shr 0x8006 0x6 (by decide) (by decide)
  have h7 := n .subnReg 0x8007 0x7 (by decide) (by decide)
  have hE := n .shl 0x800E 0xE (by decide) (by decide)
  unfold decodeFam8
  split <;> first | rfl | contradiction

theorem decodeFamE_unknown {w : Word} (h : isUnknownWord w = true) (hf : famOf w = 0xE#4) :
    decodeFamE w = .unknown w := by
  have h1 : nnOf w ≠ 0x9E := unknown_fam_nn h (k := .skp) (p := 0xE09E) (by decide) (by decide) hf
  have h2 : nnOf w ≠ 0xA1 := unknown_fam_nn h (k := .sknp) (p := 0xE0A1) (by decide) (by decide) hf
  unfold decodeFamE
  split <;> first | rfl | contradiction

theorem decodeFamF_unknown {w : Word} (h : isUnknownWord w = true) (hf : famOf w = 0xF#4) :
    decodeFamF w = .unknown w := by
  have n (k p) (nn : Byte) (hr : ⟨k, p, 0xF0FF⟩ ∈ opcodeRows)
      (hp : (0xF#4).setWidth 16 <<< 12 ||| nn.setWidth 16 = p) : nnOf w ≠ nn := unknown_fam_nn h hr hp hf
  have h1 := n .ldVxDt 0xF007 0x07 (by decide) (by decide)
  have h2 := n .ldVxK 0xF00A 0x0A (by decide) (by decide)
  have h3 := n .ldDtVx 0xF015 0x15 (by decide) (by decide)
  have h4 := n .ldStVx 0xF018 0x18 (by decide) (by decide)
  have h5 := n .addI 0xF01E 0x1E (by decide) (by decide)
  have h6 := n .ldF 0xF029 0x29 (by decide) (by decide)
  have h7 := n .ldB 0xF033 0x33 (by decide) (by decide)
  have h8 := n .ldMemVx 0xF055 0x55 (by decide) (by decide)
  have h9 := n .ldVxMem 0xF065 0x65 (by decide) (by decide)
  unfold decodeFamF
  split <;> first | rfl | contradiction

/-- A word of the UNKNOWN space decodes to the UNKNOWN variant that carries it. -/
theorem decodeWord_unknown {w : Word} (h : isUnknownWord w = true) : decodeWord w = .unknown w := by
  have n (k p) (f : Nibble) (hr : ⟨k, p, 0xF000⟩ ∈ opcodeRows) (hp : f.setWidth 16 <<< 12 = p) :
      famOf w ≠ f := unknown_fam h hr hp
  have h1 := n .jp 0x1000 0x1 (by decide) (by decide)
  have h2 := n .call 0x2000 0x2 (by decide) (by decide)
  have h3 := n .seImm 0x3000 0x3 (by decide) (by decide)
  have h4 := n .sneImm 0x4000 0x4 (by decide) (by decide)
  have h6 := n .ldImm 0x6000 0x6 (by decide) (by decide)
  have h7 := n .addImm 0x7000 0x7 (by decide) (by decide)
  have hA := n .ldI 0xA000 0xA (by decide) (by decide)
  have hB := n .jpV0 0xB000 0xB (by decide) (by decide)
  have hC := n .rnd 0xC000 0xC (by decide) (by decide)
  have hD := n .drw 0xD000 0xD (by decide) (by decide)
  unfold decodeWord
  split
  case h_1 => exact decodeFam0_unknown h
  case h_6 hf => exact if_neg (unknown_fam_n h (k := .seReg) (p := 0x5000) (by decide) (by decide) hf)
  case h_9 hf => exact decodeFam8_unknown h hf
  case h_10 hf => exact if_neg (unknown_fam_n h (k := .sneReg) (p := 0x9000) (by decide) (by decide) hf)
  case h_15 hf => exact decodeFamE_unknown h hf
  case h_16 =>
    apply decodeFamF_unknown h
    have : ∀ f : Nibble, f = 0xF ∨ f ∈ [0x0#4, 0x1, 0x2, 0x3, 0x4, 0x5, 0x6, 0x7, 0x8, 0x9, 0xA, 0xB, 0xC, 0xD, 0xE] := by
      decide
    rcases this (famOf w) with e | e
    · exact e
    · simp only [List.mem_cons, List.not_mem_nil, or_false] at e
      rcases e with e | e | e | e | e | e | e | e | e | e | e | e | e | e | e <;> contradiction
  all_goals contradiction

end Sys2Proof
end

