-- ==== Sys2Proof/Laws/PerInstr.lean ====
section
/-! SUPPORT. The family `RoundTrip`: the decoder reads from the word of a well-formed instruction that instruction, every
operand at every value. -/

namespace Sys2Proof.Laws.RoundTrip

/-- The word of `i` decodes to `i`. -/
def Statement (i : Instr) : Prop := i.wf = true → decodeWord (encodeWord i) = i

theorem cls : Statement .cls := fun _ => by decide

theorem ret : Statement .ret := fun _ => by decide

theorem jp (nnn : Addr12) : Statement (.jp nnn) := fun _ => by
  have hf : famOf (wordA 0x1000 nnn) = 0x1 := by rw [famOf_wordA]; rfl
  simp only [encodeWord, decodeWord, hf, nnnOf_wordA]
  simp [nnnOf]

theorem call (nnn : Addr12) : Statement (.call nnn) := fun _ => by
  have hf : famOf (wordA 0x2000 nnn) = 0x2 := by rw [famOf_wordA]; rfl
  simp only [encodeWord, decodeWord, hf, nnnOf_wordA]
  simp [nnnOf]

theorem seImm (x : RegIdx) (nn : Byte) : Statement (.seImm x nn) := fun _ => by
  have hf : famOf (wordXI 0x3000 x nn) = 0x3 := by rw [famOf_wordXI]; rfl
  simp only [encodeWord, decodeWord, hf, xOf_wordXI, nnOf_wordXI]
  simp [xOf, nnOf]

theorem sneImm (x : RegIdx) (nn : Byte) : Statement (.sneImm x nn) := fun _ => by
  have hf : famOf (wordXI 0x4000 x nn) = 0x4 := by rw [famOf_wordXI]; rfl
  simp only [encodeWord, decodeWord, hf, xOf_wordXI, nnOf_wordXI]
  simp [xOf, nnOf]

theorem seReg (x y : RegIdx) : Statement (.seReg x y) := fun _ => by
  have hf : famOf (wordXYN 0x5000 x y 0) = 0x5 := by rw [famOf_wordXYN]; rfl
  have hn : nOf (wordXYN 0x5000 x y 0) = 0x0 := by rw [nOf_wordXYN]; rfl
  simp only [encodeWord, decodeWord, hf, hn, xOf_wordXYN, yOf_wordXYN]
  simp [xOf, yOf]

theorem ldImm (x : RegIdx) (nn : Byte) : Statement (.ldImm x nn) := fun _ => by
  have hf : famOf (wordXI 0x6000 x nn) = 0x6 := by rw [famOf_wordXI]; rfl
  simp only [encodeWord, decodeWord, hf, xOf_wordXI, nnOf_wordXI]
  simp [xOf, nnOf]

theorem addImm (x : RegIdx) (nn : Byte) : Statement (.addImm x nn) := fun _ => by
  have hf : famOf (wordXI 0x7000 x nn) = 0x7 := by rw [famOf_wordXI]; rfl
  simp only [encodeWord, decodeWord, hf, xOf_wordXI, nnOf_wordXI]
  simp [xOf, nnOf]

theorem ldReg (x y : RegIdx) : Statement (.ldReg x y) := fun _ => by
  have hf : famOf (wordXYN 0x8000 x y 0) = 0x8 := by rw [famOf_wordXYN]; rfl
  have hn : nOf (wordXYN 0x8000 x y 0) = 0x0 := by rw [nOf_wordXYN]; rfl
  simp only [encodeWord, decodeWord, decodeFam8, hf, hn, xOf_wordXYN, yOf_wordXYN]
  simp [xOf, yOf]

theorem orReg (x y : RegIdx) : Statement (.orReg x y) := fun _ => by
  have hf : famOf (wordXYN 0x8001 x y 0) = 0x8 := by rw [famOf_wordXYN]; rfl
  have hn : nOf (wordXYN 0x8001 x y 0) = 0x1 := by rw [nOf_wordXYN]; rfl
  simp only [encodeWord, decodeWord, decodeFam8, hf, hn, xOf_wordXYN, yOf_wordXYN]
  simp [xOf, yOf]

theorem andReg (x y : RegIdx) : Statement (.andReg x y) := fun _ => by
  have hf : famOf (wordXYN 0x8002 x y 0) = 0x8 := by rw [famOf_wordXYN]; rfl
  have hn : nOf (wordXYN 0x8002 x y 0) = 0x2 := by rw [nOf_wordXYN]; rfl
  simp only [encodeWord, decodeWord, decodeFam8, hf, hn, xOf_wordXYN, yOf_wordXYN]
  simp [xOf, yOf]

theorem xorReg (x y : RegIdx) : Statement (.xorReg x y) := fun _ => by
  have hf : famOf (wordXYN 0x8003 x y 0) = 0x8 := by rw [famOf_wordXYN]; rfl
  have hn : nOf (wordXYN 0x8003 x y 0) = 0x3 := by rw [nOf_wordXYN]; rfl
  simp only [encodeWord, decodeWord, decodeFam8, hf, hn, xOf_wordXYN, yOf_wordXYN]
  simp [xOf, yOf]

theorem addReg (x y : RegIdx) : Statement (.addReg x y) := fun _ => by
  have hf : famOf (wordXYN 0x8004 x y 0) = 0x8 := by rw [famOf_wordXYN]; rfl
  have hn : nOf (wordXYN 0x8004 x y 0) = 0x4 := by rw [nOf_wordXYN]; rfl
  simp only [encodeWord, decodeWord, decodeFam8, hf, hn, xOf_wordXYN, yOf_wordXYN]
  simp [xOf, yOf]

theorem subReg (x y : RegIdx) : Statement (.subReg x y) := fun _ => by
  have hf : famOf (wordXYN 0x8005 x y 0) = 0x8 := by rw [famOf_wordXYN]; rfl
  have hn : nOf (wordXYN 0x8005 x y 0) = 0x5 := by rw [nOf_wordXYN]; rfl
  simp only [encodeWord, decodeWord, decodeFam8, hf, hn, xOf_wordXYN, yOf_wordXYN]
  simp [xOf, yOf]

theorem shr (x y : RegIdx) : Statement (.shr x y) := fun _ => by
  have hf : famOf (wordXYN 0x8006 x y 0) = 0x8 := by rw [famOf_wordXYN]; rfl
  have hn : nOf (wordXYN 0x8006 x y 0) = 0x6 := by rw [nOf_wordXYN]; rfl
  simp only [encodeWord, decodeWord, decodeFam8, hf, hn, xOf_wordXYN, yOf_wordXYN]
  simp [xOf, yOf]

theorem subnReg (x y : RegIdx) : Statement (.subnReg x y) := fun _ => by
  have hf : famOf (wordXYN 0x8007 x y 0) = 0x8 := by rw [famOf_wordXYN]; rfl
  have hn : nOf (wordXYN 0x8007 x y 0) = 0x7 := by rw [nOf_wordXYN]; rfl
  simp only [encodeWord, decodeWord, decodeFam8, hf, hn, xOf_wordXYN, yOf_wordXYN]
  simp [xOf, yOf]

theorem shl (x y : RegIdx) : Statement (.shl x y) := fun _ => by
  have hf : famOf (wordXYN 0x800E x y 0) = 0x8 := by rw [famOf_wordXYN]; rfl
  have hn : nOf (wordXYN 0x800E x y 0) = 0xE := by rw [nOf_wordXYN]; rfl
  simp only [encodeWord, decodeWord, decodeFam8, hf, hn, xOf_wordXYN, yOf_wordXYN]
  simp [xOf, yOf]

theorem sneReg (x y : RegIdx) : Statement (.sneReg x y) := fun _ => by
  have hf : famOf (wordXYN 0x9000 x y 0) = 0x9 := by rw [famOf_wordXYN]; rfl
  have hn : nOf (wordXYN 0x9000 x y 0) = 0x0 := by rw [nOf_wordXYN]; rfl
  simp only [encodeWord, decodeWord, hf, hn, xOf_wordXYN, yOf_wordXYN]
  simp [xOf, yOf]

theorem ldI (nnn : Addr12) : Statement (.ldI nnn) := fun _ => by
  have hf : famOf (wordA 0xA000 nnn) = 0xA := by rw [famOf_wordA]; rfl
  simp only [encodeWord, decodeWord, hf, nnnOf_wordA]
  simp [nnnOf]

theorem jpV0 (nnn : Addr12) : Statement (.jpV0 nnn) := fun _ => by
  have hf : famOf (wordA 0xB000 nnn) = 0xB := by rw [famOf_wordA]; rfl
  simp only [encodeWord, decodeWord, hf, nnnOf_wordA]
  simp [nnnOf]

theorem rnd (x : RegIdx) (nn : Byte) : Statement (.rnd x nn) := fun _ => by
  have hf : famOf (wordXI 0xC000 x nn) = 0xC := by rw [famOf_wordXI]; rfl
  simp only [encodeWord, decodeWord, hf, xOf_wordXI, nnOf_wordXI]
  simp [xOf, nnOf]

theorem drw (x y : RegIdx) (n : Nibble) : Statement (.drw x y n) := fun _ => by
  have hf : famOf (wordXYN 0xD000 x y n) = 0xD := by rw [famOf_wordXYN]; rfl
  simp only [encodeWord, decodeWord, hf, xOf_wordXYN, yOf_wordXYN, nOf_wordXYN]
  simp [xOf, yOf, nOf]

theorem skp (x : RegIdx) : Statement (.skp x) := fun _ => by
  have hf : famOf (wordXS 0xE09E x) = 0xE := by rw [famOf_wordXS]; rfl
  have hn : nnOf (wordXS 0xE09E x) = 0x9E := by rw [nnOf_wordXS]; rfl
  simp only [encodeWord, decodeWord, decodeFamE, hf, hn, xOf_wordXS]
  simp [xOf]

theorem sknp (x : RegIdx) : Statement (.sknp x) := fun _ => by
  have hf : famOf (wordXS 0xE0A1 x) = 0xE := by rw [famOf_wordXS]; rfl
  have hn : nnOf (wordXS 0xE0A1 x) = 0xA1 := by rw [nnOf_wordXS]; rfl
  simp only [encodeWord, decodeWord, decodeFamE, hf, hn, xOf_wordXS]
  simp [xOf]

theorem ldVxDt (x : RegIdx) : Statement (.ldVxDt x) := fun _ => by
  have hf : famOf (wordXS 0xF007 x) = 0xF := by rw [famOf_wordXS]; rfl
  have hn : nnOf (wordXS 0xF007 x) = 0x07 := by rw [nnOf_wordXS]; rfl
  simp only [encodeWord, decodeWord, decodeFamF, hf, hn, xOf_wordXS]
  simp [xOf]

theorem ldVxK (x : RegIdx) : Statement (.ldVxK x) := fun _ => by
  have hf : famOf (wordXS 0xF00A x) = 0xF := by rw [famOf_wordXS]; rfl
  have hn : nnOf (wordXS 0xF00A x) = 0x0A := by rw [nnOf_wordXS]; rfl
  simp only [encodeWord, decodeWord, decodeFamF, hf, hn, xOf_wordXS]
  simp [xOf]

theorem ldDtVx (x : RegIdx) : Statement (.ldDtVx x) := fun _ => by
  have hf : famOf (wordXS 0xF015 x) = 0xF := by rw [famOf_wordXS]; rfl
  have hn : nnOf (wordXS 0xF015 x) = 0x15 := by rw [nnOf_wordXS]; rfl
  simp only [encodeWord, decodeWord, decodeFamF, hf, hn, xOf_wordXS]
  simp [xOf]

theorem ldStVx (x : RegIdx) : Statement (.ldStVx x) := fun _ => by
  have hf : famOf (wordXS 0xF018 x) = 0xF := by rw [famOf_wordXS]; rfl
  have hn : nnOf (wordXS 0xF018 x) = 0x18 := by rw [nnOf_wordXS]; rfl
  simp only [encodeWord, decodeWord, decodeFamF, hf, hn, xOf_wordXS]
  simp [xOf]

theorem addI (x : RegIdx) : Statement (.addI x) := fun _ => by
  have hf : famOf (wordXS 0xF01E x) = 0xF := by rw [famOf_wordXS]; rfl
  have hn : nnOf (wordXS 0xF01E x) = 0x1E := by rw [nnOf_wordXS]; rfl
  simp only [encodeWord, decodeWord, decodeFamF, hf, hn, xOf_wordXS]
  simp [xOf]

theorem ldF (x : RegIdx) : Statement (.ldF x) := fun _ => by
  have hf : famOf (wordXS 0xF029 x) = 0xF := by rw [famOf_wordXS]; rfl
  have hn : nnOf (wordXS 0xF029 x) = 0x29 := by rw [nnOf_wordXS]; rfl
  simp only [encodeWord, decodeWord, decodeFamF, hf, hn, xOf_wordXS]
  simp [xOf]

theorem ldB (x : RegIdx) : Statement (.ldB x) := fun _ => by
  have hf : famOf (wordXS 0xF033 x) = 0xF := by rw [famOf_wordXS]; rfl
  have hn : nnOf (wordXS 0xF033 x) = 0x33 := by rw [nnOf_wordXS]; rfl
  simp only [encodeWord, decodeWord, decodeFamF, hf, hn, xOf_wordXS]
  simp [xOf]

theorem ldMemVx (x : RegIdx) : Statement (.ldMemVx x) := fun _ => by
  have hf : famOf (wordXS 0xF055 x) = 0xF := by rw [famOf_wordXS]; rfl
  have hn : nnOf (wordXS 0xF055 x) = 0x55 := by rw [nnOf_wordXS]; rfl
  simp only [encodeWord, decodeWord, decodeFamF, hf, hn, xOf_wordXS]
  simp [xOf]

theorem ldVxMem (x : RegIdx) : Statement (.ldVxMem x) := fun _ => by
  have hf : famOf (wordXS 0xF065 x) = 0xF := by rw [famOf_wordXS]; rfl
  have hn : nnOf (wordXS 0xF065 x) = 0x65 := by rw [nnOf_wordXS]; rfl
  simp only [encodeWord, decodeWord, decodeFamF, hf, hn, xOf_wordXS]
  simp [xOf]

theorem unknown (w : Word) : Statement (.unknown w) := decodeWord_unknown

end Sys2Proof.Laws.RoundTrip
end

