-- ==== Sys2Proof/Laws/Raising.lean ====
section
/-! SUPPORT. The six instructions that may raise (R261): one lemma for each that says when it
raises and what it changes. -/

namespace Sys2Proof.Machine

/-- What `CALL` (R162) does: it raises, or it completes. -/
theorem execCall_cases (n : Addr12) (s t : State) (h : execCall n s = .next t) :
    (s.sp = Config.stackDepth ∧ t = s.raise ⟨.stackOverflow, some s.pc.toNat⟩) ∨
    (s.sp ≠ Config.stackDepth ∧ t = (s.setStack (s.stack ++ [s.pc])).setPc (addrOperand n)) := by
  rcases push_cases s s.pc with ⟨h1, h2⟩ | ⟨h1, h2⟩
  · simp only [execCall, h2] at h; cases h; exact .inl ⟨h1, rfl⟩
  · simp only [execCall, h2] at h; cases h; exact .inr ⟨h1, rfl⟩

/-- What `RET` (R160) does: it raises, or it completes. -/
theorem execRet_cases (s t : State) (h : execRet s = .next t) :
    (s.sp = 0 ∧ t = s.raise ⟨.stackUnderflow, none⟩) ∨
    (s.sp ≠ 0 ∧ ∃ l w, s.stack = l ++ [w] ∧ t = (s.setStack l).setPc w) := by
  rcases pop_cases s with ⟨h1, h2⟩ | ⟨l, w, h1, h2⟩
  · simp only [execRet, h2] at h; cases h; exact .inl ⟨by simp [State.sp, h1], rfl⟩
  · simp only [execRet, h2] at h; cases h; exact .inr ⟨by simp [State.sp, h1], l, w, h1, rfl⟩

/-- What `LD B` (R213) does: it raises, or it completes. -/
theorem execLdB_cases (x : RegIdx) (s t : State) (h : execLdB x s = .next t) :
    (Config.memSize ≤ s.i.toNat + 2 ∧ t = s.raise (memFatal s.indexAddr)) ∨
    (s.i.toNat + 2 < Config.memSize ∧ t = s.setMem (s.mem.writeAll s.indexAddr (bcdDigits (s.vreg x)))) := by
  by_cases hr : inRange s.indexAddr 3 = true
  · have : memWrite s.mem s.indexAddr (bcdDigits (s.vreg x)) = .ok _ := if_pos hr
    simp only [execLdB, this] at h; cases h
    exact .inr ⟨by rw [inRange_iff (by omega)] at hr; simp only [State.indexAddr] at hr; omega, rfl⟩
  · have : memWrite s.mem s.indexAddr (bcdDigits (s.vreg x)) = .error _ := if_neg hr
    simp only [execLdB, this] at h; cases h
    exact .inl ⟨by rw [inRange_iff (by omega)] at hr; simp only [State.indexAddr] at hr; omega, rfl⟩

/-- What `LD [I], Vx` (R214) does: it raises, or it completes. -/
theorem execLdMemVx_cases (x : RegIdx) (s t : State) (h : execLdMemVx x s = .next t) :
    (Config.memSize ≤ s.i.toNat + x.toNat ∧ t = s.raise (memFatal s.indexAddr)) ∨
    (s.i.toNat + x.toNat < Config.memSize ∧ t = s.setMem (s.mem.writeAll s.indexAddr (s.regRange x))) := by
  have hl := regRange_length s x
  by_cases hr : inRange s.indexAddr (s.regRange x).length = true
  · have : memWrite s.mem s.indexAddr (s.regRange x) = .ok _ := if_pos hr
    simp only [execLdMemVx, this] at h; cases h
    exact .inr ⟨by rw [hl, inRange_iff (by omega)] at hr; simp only [State.indexAddr] at hr; omega, rfl⟩
  · have : memWrite s.mem s.indexAddr (s.regRange x) = .error _ := if_neg hr
    simp only [execLdMemVx, this] at h; cases h
    exact .inl ⟨by rw [hl, inRange_iff (by omega)] at hr; simp only [State.indexAddr] at hr; omega, rfl⟩

/-- What `LD Vx, [I]` (R215) does: it raises, or it completes. -/
theorem execLdVxMem_cases (x : RegIdx) (s t : State) (h : execLdVxMem x s = .next t) :
    (Config.memSize ≤ s.i.toNat + x.toNat ∧ t = s.raise (memFatal s.indexAddr)) ∨
    (s.i.toNat + x.toNat < Config.memSize ∧ ∃ bs, bs.length = x.toNat + 1 ∧ t = s.loadRegs 0 bs) := by
  rcases memRead_cases s.mem s.indexAddr (x.toNat + 1) with ⟨h1, h2, h3⟩ | ⟨h1, bs, h2, h3, -⟩
  · simp only [execLdVxMem, h3] at h; cases h; exact .inl ⟨by simp only [State.indexAddr] at h2; omega, rfl⟩
  · simp only [execLdVxMem, h2] at h; cases h; exact .inr ⟨by simp only [State.indexAddr] at h1; omega, bs, h3, rfl⟩

/-- What `DRW` (R151) does: it raises, or it completes. -/
theorem execDrw_cases (x y : RegIdx) (n : Nibble) (s t : State) (h : execDrw x y n s = .next t) :
    (n ≠ 0 ∧ Config.memSize < s.i.toNat + n.toNat ∧ t = s.raise (memFatal s.indexAddr)) ∨
    ((n = 0 ∨ s.i.toNat + n.toNat ≤ Config.memSize) ∧
      ∃ d c, t = ((s.setDisp d).setV 0xF#4 (flagOf c)).emit .displayDirtied) := by
  have hn : n.toNat = 0 ↔ n = 0 := ⟨fun e => BitVec.eq_of_toNat_eq e, by rintro rfl; rfl⟩
  rcases memRead_cases s.mem s.indexAddr n.toNat with ⟨h1, h2, h3⟩ | ⟨h1, bs, h2, h3, -⟩
  · simp only [execDrw, h3] at h; cases h; exact .inl ⟨fun e => h1 (hn.mpr e), h2, rfl⟩
  · simp only [execDrw, h2] at h; cases h; exact .inr ⟨by rwa [hn] at h1, _, _, rfl⟩

end Sys2Proof.Machine
end

