-- ==== Sys2Proof/Laws/Step.lean ====
section
/-! SUPPORT. The four ways a step can go (R123): one lemma for each. -/

namespace Sys2Proof.Machine

/-- In Halted. -/
theorem step_halted {s : State} (h : s.runState = .halted) : step s = .next s.clearEffects := by
  unfold step; rw [h]

/-- In AwaitingKey. -/
theorem step_awaitingKey {s : State} (h : s.runState = .awaitingKey) : step s = .next s.clearEffects.awaitKey := by
  unfold step; rw [h]

/-- In Running, with the fetch answering a word. -/
theorem step_fetched {s t : State} {w : Word} (h : s.runState = .running) (hf : s.clearEffects.fetch = .ok (w, t)) :
    step s = exec (decodeWord w) t := by
  unfold step; rw [h]; simp only [hf]

/-- In Running, with the fetch raising. -/
theorem step_fetch_raised {s : State} {f : Fatal} (h : s.runState = .running) (hf : s.clearEffects.fetch = .error f) :
    step s = .next (s.clearEffects.raise f) := by
  unfold step; rw [h]; simp only [hf]

end Sys2Proof.Machine
end

