-- ==== Sys2Proof/Tests/Slice0.lean ====
section
/-! SUPPORT. Tests: the smoke test of WellFormed, words and results that spec/95_test_vectors.md gives (the vector's name stands
in each comment), and for each statement with hypotheses a witness that meets them together. -/

namespace Sys2Proof.Tests

open Sys2Proof.Machine

/- A frame is compared as a number below 2 ^ 2048. -/
set_option exponentiation.threshold 4096

/-! ### WellFormed refuses an UNKNOWN word that is another instruction's -/

/-- One word of each pattern shape: whole word, family, family and low nibble, family and low byte. -/
theorem test_wf_refuses_words_of_operations :
    [0x00E0, 0x00EE, 0x1ABC, 0x2FFF, 0x3A42, 0x5120, 0x8AB4, 0x8ABE, 0x9AB0, 0xA300, 0xB300, 0xC30F, 0xD120,
      0xE19E, 0xE1A1, 0xF107, 0xF165].all (fun w => !(Instr.unknown w).wf) = true := by decide

/-- R100: words of the six families that have UNKNOWN words. -/
theorem test_wf_accepts_unknown_words :
    [0x0000, 0x01E0, 0x5121, 0x8AB8, 0x8ABF, 0x9AB1, 0xE19F, 0xF175, 0xFFFF].all
      (fun w => (Instr.unknown w).wf) = true := by decide

/-! ### Decoding (vectors DEC1 to DEC48) -/

/-- DEC1, 2, 7 to 14. -/
theorem test_decode_low_families :
    [0x00E0, 0x00EE, 0x1ABC, 0x2FFF, 0x3A42, 0x4A42, 0x5120, 0x6005, 0x7105].map decodeWord =
      [.cls, .ret, .jp 0xABC, .call 0xFFF, .seImm 0xA 0x42, .sneImm 0xA 0x42, .seReg 1 2, .ldImm 0 5, .addImm 1 5] := by
  decide

/-- DEC15 to 22, 24, 26. -/
theorem test_decode_register_families :
    [0x8AB0, 0x8AB1, 0x8AB2, 0x8AB3, 0x8AB4, 0x8AB5, 0x8AB6, 0x8AB7, 0x8ABE, 0x9AB0].map decodeWord =
      [.ldReg 0xA 0xB, .orReg 0xA 0xB, .andReg 0xA 0xB, .xorReg 0xA 0xB, .addReg 0xA 0xB, .subReg 0xA 0xB, .shr 0xA 0xB,
        .subnReg 0xA 0xB, .shl 0xA 0xB, .sneReg 0xA 0xB] := by
  decide

/-- DEC28 to 34. -/
theorem test_decode_high_families :
    [0xA300, 0xB300, 0xC30F, 0xD125, 0xD120, 0xE19E, 0xE1A1].map decodeWord =
      [.ldI 0x300, .jpV0 0x300, .rnd 3 0x0F, .drw 1 2 5, .drw 1 2 0, .skp 1, .sknp 1] := by
  decide

/-- DEC37 to 45. -/
theorem test_decode_family_F :
    [0xF107, 0xF10A, 0xF115, 0xF118, 0xF11E, 0xF129, 0xF133, 0xF155, 0xF165].map decodeWord =
      [.ldVxDt 1, .ldVxK 1, .ldDtVx 1, .ldStVx 1, .addI 1, .ldF 1, .ldB 1, .ldMemVx 1, .ldVxMem 1] := by
  decide

/-- DEC3 to 6, 12, 23, 25, 27, 35, 36, 46 to 48. -/
theorem test_decode_unknown :
    [0x0000, 0x01E0, 0x00E1, 0x0ABC, 0x5121, 0x8AB8, 0x8ABF, 0x9AB1, 0xE19F, 0xE100, 0xF175, 0xF1FF, 0xFFFF].all
      (fun w => decodeWord w == .unknown w) = true := by
  decide

/-- E1 to E10. -/
theorem test_encode :
    [encode (.addReg 0 1), encode (.ldImm 1 0x0A), encode (.drw 1 2 5), encode (.ldI 0x300), encode (.shr 1 0),
      encode (.ldVxK 3), encode (.sknp 4), encode .cls, encode (.jpV0 0x300), encode (.ldMemVx 0xF)] =
      [[0x80, 0x14], [0x61, 0x0A], [0xD1, 0x25], [0xA3, 0x00], [0x81, 0x06],
        [0xF3, 0x0A], [0xE4, 0xA1], [0x00, 0xE0], [0xB3, 0x00], [0xFF, 0x55]] := by
  decide

/-- A list of bytes: R64 puts the high byte first; R90 needs two bytes. -/
theorem test_decode_bytes : (decode [0x80, 0x14, 0x00]).toOption = some (.addReg 0 1, [0x00]) ∧
    (decode [0x80]).toOption = none := by
  decide

/-- The table's word numbering: one word, no bits above it. -/
theorem test_decodeTableWord : decodeTableWord 16 0xD125 = some (.drw 1 2 5) ∧ decodeTableWord 16 0xFFFF = some (.unknown 0xFFFF) := by
  decide

/-! ### One step (parts 2.3 to 2.8 of the vectors) -/

/-- `Z(a, w)` of the vectors: the reset state with `PC` at `a`, the word `w` there, and both inputs presented as 0. -/
def z (a : Nat) (w : Word) : State :=
  { State.reset with
    pc := BitVec.ofNat 16 a
    mem := Memory.writeAll [] a [hiByte w, loByte w]
    inputs := ⟨some 0, some 0, 0⟩ }

/-- `s` with bytes put into memory. -/
def put (s : State) (a : Nat) (bs : List Byte) : State := s.setMem (s.mem.writeAll a bs)

/-- `s` with pixels set. -/
def lit (s : State) (ps : List (Nat × Nat)) : State :=
  { s with disp := ps.foldl (fun d p => d ||| BitVec.twoPow 2048 (pixelIndex p.1 p.2)) 0 }

/-- The next state of an outcome, if it is one. -/
def nextOf (r : Host.Outcome State Fault Refusal) : Option State :=
  match r with
  | .next t => some t
  | .fault _ => none
  | .refused _ => none

/-- One step of `s` ends in `f s`, every element compared. -/
def ends (s : State) (f : State → State) : Bool := nextOf (step s) == some (f s)

/-- The end of a step that entered Halted. -/
def halts (pc : Word) (f : Fatal) (s : State) : State := (s.setPc pc).raise f

/-- CF1. -/
theorem test_jp : ends (z 0x20A 0x1204) (·.setPc 0x204) = true := by decide
/-- CF4. -/
theorem test_call : ends (z 0x204 0x2208) (fun s => (s.setPc 0x208).setStack [0x206]) = true := by decide
/-- CF5: the 17th nested call. -/
theorem test_call_overflow : ends ((z 0x204 0x2208).setStack (List.replicate 16 0x202))
    (halts 0x206 ⟨.stackOverflow, some 0x206⟩) = true := by decide
/-- CF6. -/
theorem test_ret : ends ((z 0x20C 0x00EE).setStack [0x206]) (fun s => (s.setPc 0x206).setStack []) = true := by decide
/-- CF7. -/
theorem test_ret_underflow : ends (z 0x20C 0x00EE) (halts 0x20E ⟨.stackUnderflow, none⟩) = true := by decide
/-- CF8. -/
theorem test_seImm_skips : ends (z 0x208 0x3000) (·.setPc 0x20C) = true := by decide
/-- CF9. -/
theorem test_seImm_goes_on : ends ((z 0x208 0x3000).setV 0 2) (·.setPc 0x20A) = true := by decide
/-- CF10. -/
theorem test_sneImm_skips : ends ((z 0x300 0x4311).setV 3 0x10) (·.setPc 0x304) = true := by decide
/-- CF11. -/
theorem test_sneImm_goes_on : ends ((z 0x300 0x4311).setV 3 0x11) (·.setPc 0x302) = true := by decide
/-- CF12. -/
theorem test_seReg_skips : ends (((z 0x200 0x5120).setV 1 7).setV 2 7) (·.setPc 0x204) = true := by decide
/-- CF13. -/
theorem test_seReg_goes_on : ends (((z 0x200 0x5120).setV 1 7).setV 2 8) (·.setPc 0x202) = true := by decide
/-- CF15. -/
theorem test_sneReg_skips : ends (((z 0x200 0x9120).setV 1 7).setV 2 8) (·.setPc 0x204) = true := by decide
/-- CF16. -/
theorem test_sneReg_goes_on : ends (((z 0x200 0x9120).setV 1 7).setV 2 7) (·.setPc 0x202) = true := by decide
/-- CF19: the sum is not reduced to 12 bits. -/
theorem test_jpV0 : ends ((z 0x200 0xBFFF).setV 0 0xFF) (·.setPc 0x10FE) = true := by decide
/-- CF20, its second step. -/
theorem test_fetch_past_the_end : ends ((z 0xFFC 0x3000).setPc 0x1000) (halts 0x1000 ⟨.memOutOfRange, some 0x1000⟩) = true := by
  decide
/-- CF21. -/
theorem test_fetch_of_a_half_word : ends ((z 0x200 0).setPc 0xFFF) (halts 0xFFF ⟨.memOutOfRange, some 0x1000⟩) = true := by
  decide

/-- A1. -/
theorem test_ldImm : ends (z 0x200 0x6005) (fun s => (s.setPc 0x202).setV 0 5) = true := by decide
/-- A3: no carry flag. -/
theorem test_addImm : ends (((z 0x200 0x7105).setV 1 0xFE).setV 15 0x55) (fun s => (s.setPc 0x202).setV 1 3) = true := by
  decide
/-- A6. -/
theorem test_ldReg : ends ((z 0x200 0x8120).setV 2 0x7B) (fun s => (s.setPc 0x202).setV 1 0x7B) = true := by decide
/-- A7, with the flag register at 1, which stays. -/
theorem test_orReg : ends ((((z 0x200 0x8121).setV 1 0xF0).setV 2 0x0F).setV 15 1)
    (fun s => (s.setPc 0x202).setV 1 0xFF) = true := by decide
/-- A8. -/
theorem test_andReg : ends ((((z 0x200 0x8122).setV 1 0xF3).setV 2 0x3F).setV 15 1)
    (fun s => (s.setPc 0x202).setV 1 0x33) = true := by decide
/-- A9. -/
theorem test_xorReg : ends ((((z 0x200 0x8123).setV 1 0xFF).setV 2 0x0F).setV 15 1)
    (fun s => (s.setPc 0x202).setV 1 0xF0) = true := by decide
/-- A17: the old flag value is the addend. -/
theorem test_addReg : ends (((z 0x200 0x81F4).setV 1 0xFF).setV 15 1)
    (fun s => (s.setPc 0x202).setV 1 0) = true := by decide
/-- A16: the flag wins over the sum. -/
theorem test_addReg_flag_destination : ends (((z 0x200 0x8F14).setV 15 0x10).setV 1 0x20)
    (fun s => (s.setPc 0x202).setV 15 0) = true := by decide
/-- A18. -/
theorem test_subReg_borrow : ends (((z 0x200 0x8125).setV 1 5).setV 2 7) (fun s => (s.setPc 0x202).setV 1 0xFE) = true := by
  decide
/-- A19. -/
theorem test_subReg : ends (((z 0x200 0x8125).setV 1 7).setV 2 5)
    (fun s => ((s.setPc 0x202).setV 1 2).setV 15 1) = true := by decide
/-- A24. -/
theorem test_shr : ends ((z 0x200 0x8106).setV 1 5) (fun s => ((s.setPc 0x202).setV 1 2).setV 15 1) = true := by decide
/-- A26: `Y` is ignored. -/
theorem test_shr_ignores_y : ends (((z 0x200 0x8126).setV 1 4).setV 2 0xFF) (fun s => (s.setPc 0x202).setV 1 2) = true := by
  decide
/-- A29. -/
theorem test_subnReg : ends (((z 0x200 0x8127).setV 1 5).setV 2 7)
    (fun s => ((s.setPc 0x202).setV 1 2).setV 15 1) = true := by decide
/-- A30. -/
theorem test_subnReg_borrow : ends (((z 0x200 0x8127).setV 1 7).setV 2 5) (fun s => (s.setPc 0x202).setV 1 0xFE) = true := by
  decide
/-- A33. -/
theorem test_shl : ends ((z 0x200 0x810E).setV 1 0x81) (fun s => ((s.setPc 0x202).setV 1 2).setV 15 1) = true := by decide
/-- A37: the flag wins over the result. -/
theorem test_shl_flag_destination : ends ((z 0x200 0x8FFE).setV 15 0x7F) (fun s => (s.setPc 0x202).setV 15 0) = true := by
  decide
/-- A38. -/
theorem test_rnd : (nextOf (step ((z 0x200 0xC30F).present 0 0xA7))).map (fun t => (t.vreg 3, t.pc)) = some (7, 0x202) := by
  decide

/-- M2: the upper nibble of `I` is cleared. -/
theorem test_ldI : ends ((z 0x200 0xAFFF).setI 0x1234) (fun s => (s.setPc 0x202).setI 0x0FFF) = true := by decide
/-- M5: no 12-bit wrap, no flag. -/
theorem test_addI : ends (((z 0x200 0xF21E).setI 0x0FFF).setV 2 1) (fun s => (s.setPc 0x202).setI 0x1000) = true := by decide
/-- M4: a 16-bit wrap, no flag. -/
theorem test_addI_wraps : ends (((z 0x200 0xF21E).setI 0xFFFF).setV 2 1) (fun s => (s.setPc 0x202).setI 0) = true := by
  decide
/-- M7. -/
theorem test_ldF : ends (((z 0x200 0xF029).setI 0x0999).setV 0 0x0A) (fun s => (s.setPc 0x202).setI 0x32) = true := by decide
/-- R212's corner case at the setting `formula`: the largest value, 0x4FB. -/
theorem test_ldF_above_15 : ends ((z 0x200 0xF029).setV 0 0xFF) (fun s => (s.setPc 0x202).setI 0x4FB) = true := by decide
/-- M15: the last position where all three bytes are in memory. -/
theorem test_ldB : ends (((z 0x200 0xF033).setI 0xFFD).setV 0 123)
    (fun s => put (s.setPc 0x202) 0xFFD [1, 2, 3]) = true := by decide
/-- M16: all or nothing. -/
theorem test_ldB_out_of_range : ends (((z 0x200 0xF033).setI 0xFFE).setV 0 123)
    (halts 0x202 ⟨.memOutOfRange, some 0x1000⟩) = true := by decide
/-- M18. -/
theorem test_ldMemVx : ends ((((((z 0x200 0xF255).setV 0 1).setV 1 2).setV 2 3).setV 3 4).setI 0x400)
    (fun s => put (s.setPc 0x202) 0x400 [1, 2, 3]) = true := by decide
/-- M20. -/
theorem test_ldMemVx_out_of_range : ends ((((z 0x200 0xF155).setV 0 0xAA).setV 1 0xBB).setI 0xFFF)
    (halts 0x202 ⟨.memOutOfRange, some 0x1000⟩) = true := by decide
/-- M22. -/
theorem test_ldVxMem : ends (put (((z 0x200 0xF265).setI 0x300).setV 3 0x77) 0x300 [2, 5, 4, 9])
    (fun s => (((s.setPc 0x202).setV 0 2).setV 1 5).setV 2 4) = true := by decide
/-- M24. -/
theorem test_ldVxMem_out_of_range : ends (put ((((z 0x200 0xF165).setI 0xFFF).setV 0 1).setV 1 2) 0xFFF [0x5A])
    (halts 0x202 ⟨.memOutOfRange, some 0x1000⟩) = true := by decide

/-- D1. -/
theorem test_cls : ends (lit (z 0x200 0x00E0) [(0, 0), (10, 5), (63, 31)])
    (fun s => ((s.setPc 0x202).setDisp 0).emit .displayDirtied) = true := by decide
/-- D5: bits beyond the right and the bottom edge are dropped. -/
theorem test_drw_clips : ends (put ((((z 0x200 0xD122).setI 0x300).setV 1 62).setV 2 31) 0x300 [0xFF, 0xFF])
    (fun s => ((s.setPc 0x202).setDisp (lit s [(62, 31), (63, 31)]).disp).emit .displayDirtied) = true := by decide
/-- D8: a collision. -/
theorem test_drw_collides : ends (lit (put ((z 0x200 0xD121).setI 0x300) 0x300 [0xC0]) [(1, 0)])
    (fun s => (((s.setPc 0x202).setDisp (lit s [(0, 0)]).disp).setV 15 1).emit .displayDirtied) = true := by decide

/-- K1. -/
theorem test_skp : (nextOf (step (((z 0x220 0xE49E).setV 4 7).present 0x0080 0))).map (·.pc) = some 0x224 := by decide
/-- K4: a value above 15 names no key. -/
theorem test_skp_no_key : (nextOf (step (((z 0x220 0xE49E).setV 4 0x17).present 0xFFFF 0))).map (·.pc) = some 0x222 := by
  decide
/-- K6. -/
theorem test_sknp : (nextOf (step (((z 0x220 0xE4A1).setV 4 7).present 0x0080 0))).map (·.pc) = some 0x222 := by decide
/-- K7. -/
theorem test_sknp_no_key : (nextOf (step (((z 0x220 0xE4A1).setV 4 0x17).present 0xFFFF 0))).map (·.pc) = some 0x224 := by
  decide
/-- K9. -/
theorem test_ldVxDt : ends ((z 0x200 0xF407).setDt 6) (fun s => (s.setPc 0x202).setV 4 6) = true := by decide
/-- K10. -/
theorem test_ldDtVx : ends ((z 0x200 0xF315).setV 3 7) (fun s => (s.setPc 0x202).setDt 7) = true := by decide
/-- K12. -/
theorem test_ldStVx : ends ((z 0x200 0xF518).setV 5 2) (fun s => (s.setPc 0x202).setSt 2) = true := by decide
/-- K14: an earlier report is discarded. -/
theorem test_ldVxK : ends ((z 0x200 0xF30A).reportKey 5) (fun s =>
    { s with pc := 0x202, runState := .awaitingKey, waitReg := 3, keyLatch := none, effects := [.keyRequested] }) = true := by
  decide
/-- Q1, operation 6: the key is delivered. -/
theorem test_key_delivered :
    ends { z 0x202 0 with runState := .awaitingKey, waitReg := 3, keyLatch := some 9 } (fun s =>
      { (s.setV 3 9) with runState := .running, keyLatch := none }) = true := by decide
/-- U6. -/
theorem test_unknown : ends (z 0x200 0x8128) (·.setPc 0x202) = true := by decide

/-- Q2. -/
theorem test_tick : ((z 0x200 0).setDt 2 |>.setSt 1).tick = ((z 0x200 0).setDt 1).setSt 0 ∧
    ((z 0x200 0).setDt 0).tick.dt = 0 := by decide
/-- Q5c: a program of 3585 bytes is refused. -/
theorem test_construct_oversize : nextOf (State.construct (List.replicate 3585 0) 0) = none := by
  rw [State.construct, List.length_replicate]; rfl
/-- Q5d: a program of odd length. -/
theorem test_construct : (nextOf (State.construct [0x60] 0)).map (fun t => (t.mem.read 0x200, t.mem.read 0x201, t.pc)) =
    some (0x60, 0x00, 0x200) := by decide
/-- A word placed by `withFetchWord` after reset is the next instruction. -/
theorem test_withFetchWord : (nextOf (step (State.reset.withFetchWord 16 0x6005))).map (fun t => (t.vreg 0, t.pc)) =
    some (5, 0x202) := by decide
/-- Memory stays in its canonical form: writing back what an unlisted byte reads as removes the cell. -/
theorem test_canonical_memory : Memory.write (Memory.write [] 0x300 1) 0x300 0 = [] ∧ Memory.write [] 0x000 0xF0 = [] := by
  decide

/-! ### Witnesses: states and operands that meet a statement's hypotheses together, clause by clause -/

/-- DecodeOfEncodeIsTheInstruction: every operand at its largest, and an UNKNOWN word. -/
theorem witness_DecodeOfEncode : (Instr.drw 0xF 0xF 0xF).wf = true ∧ (Instr.unknown 0xFFFF).wf = true := by decide

/-- DecoderAgreesWithMatchAndMask: the first row and the last. -/
theorem witness_DecoderAgrees : (⟨.cls, 0x00E0, 0xFFFF⟩ : OpcodeRow) ∈ opcodeRows ∧
    (⟨.ldVxMem, 0xF065, 0xF0FF⟩ : OpcodeRow) ∈ opcodeRows := by decide

/-- StepRunsTheDecodedInstruction: the last fetchable word, and an instruction's bytes there. -/
theorem witness_StepRunsTheDecodedInstruction :
    (z 0xFFE 0x8014).runState = .running ∧ (z 0xFFE 0x8014).pc.toNat + 1 < Config.memSize ∧
    (Instr.addReg 0 1).wf = true ∧
    [(z 0xFFE 0x8014).mem.read 0xFFE, (z 0xFFE 0x8014).mem.read 0xFFF] = encode (.addReg 0 1) := by decide

/-- FetchOutsideMemoryHalts: the first `PC` that faults and the last. -/
theorem witness_FetchOutsideMemoryHalts : (State.reset.setPc 0xFFF).runState = .running ∧
    Config.memSize ≤ (State.reset.setPc 0xFFF).pc.toNat + 1 ∧
    Config.memSize ≤ (State.reset.setPc 0xFFFF).pc.toNat + 1 := by decide

/-- `s` waiting for a key to register `x`. -/
def waiting (x : RegIdx) (k : Option Nibble) : State :=
  { State.reset with runState := .awaitingKey, waitReg := x, keyLatch := k }

/-- AwaitingStepDeliversTheReportedKey: without and with a report, to the last register. -/
theorem witness_AwaitingStep : (waiting 0xF none).runState = .awaitingKey ∧ (waiting 0xF none).keyLatch = none ∧
    (waiting 0xF (some 0xF)).runState = .awaitingKey ∧ (waiting 0xF (some 0xF)).keyLatch = some 0xF := by decide

/-- `s` in Halted. -/
def stopped : State := State.reset.raise ⟨.stackUnderflow, none⟩

/-- HaltedIsTerminal and HaltedCoreKeepsItsStateUntilReset: a halted state, operations none of which is a reset, and for each
of the three others operations without it. -/
theorem witness_Halted : stopped.runState = .halted ∧
    (∀ program, HostOp.reset program ∉ [.tick, .step 0xFFFF 0xFF, .reportKey 4, .clearDirty]) ∧
    HostOp.tick ∉ [.step 0xFFFF 0xFF, .reportKey 4, .clearDirty] ∧
    (∀ k, HostOp.reportKey k ∉ [.tick, .step 0xFFFF 0xFF, .clearDirty]) ∧
    HostOp.clearDirty ∉ [.tick, .step 0xFFFF 0xFF, .reportKey 4] := by
  simp [stopped, State.raise]

/-- StepReturnsAtMostOneEffect and RunStateTransitionsOfAStep: a step in Running that enters the wait, one that halts, one in
AwaitingKey with a report and one without, one in Halted. -/
theorem witness_StepTransitions :
    (nextOf (step (z 0xFFE 0xF30A))).map (·.runState) = some .awaitingKey ∧
    (nextOf (step (z 0x200 0x00EE))).map (fun t => (t.runState, t.effects)) =
      some (.halted, [.fatal ⟨.stackUnderflow, none⟩]) ∧
    (nextOf (step (waiting 3 (some 7)))).map (·.runState) = some .running ∧
    (nextOf (step (waiting 3 none))).map (·.runState) = some .awaitingKey ∧
    (nextOf (step stopped)).map (fun t => (t.runState, t.effects)) = some (.halted, []) := by decide

/-- EveryStepAnswersANextState: a program that fits, of the largest length. -/
theorem witness_program_fits : (List.replicate 3584 (0xFF : Byte)).length ≤ 3584 :=
  List.length_replicate.le

/-- StepKeepsTheInvariant: a state off the reset state meets it (a full stack, a written cell), and so does a halted one. -/
theorem witness_Inv : (put ((z 0x204 0x2208).setStack (List.replicate 16 0x202)) 0xFFF [1]).Inv ∧ stopped.Inv :=
  ⟨⟨by decide, by decide, by decide⟩, ⟨by decide, by decide, by decide⟩⟩

/-- WaitKeepsPcUntilAKeyIsReported: operations that are not a reset, on a waiting state, answer. -/
theorem witness_Wait : (waiting 3 none).runState = .awaitingKey ∧ (∀ program, HostOp.step 0 0 ≠ .reset program) ∧
    (nextOf (applyOp (.step 0 0) (waiting 3 none))).map (·.runState) = some .awaitingKey ∧
    (nextOf (applyOp (.step 0 0) (waiting 3 (some 7)))).map (·.runState) = some .running :=
  ⟨by decide, by simp, by decide, by decide⟩

/-- AddAndSubtractSetTheFlag, ShiftsSetTheFlagToTheBitShiftedOut: a destination beside the flag register. -/
theorem witness_not_the_flag : (0xE : RegIdx) ≠ 0xF#4 ∧ (0 : RegIdx) ≠ 0xE := by decide

/-- RandomByteIsMasked and SkipOnKeyTestsTheHeldKey: inputs are presented; keys 15 (held) and 16 (none) meet the two sides. -/
theorem witness_inputs : (State.reset.present 0x8000 0xA7).inputs.rnd = some 0xA7 ∧
    (State.reset.present 0x8000 0xA7).inputs.keysHeld = some 0x8000 ∧
    (nextOf (exec (.skp 1) ((State.reset.present 0x8000 0).setV 1 15))).map (·.pc) = some 0x202 ∧
    (nextOf (exec (.skp 1) ((State.reset.present 0xFFFF 0).setV 1 16))).map (·.pc) = some 0x200 := by decide

/-- PushAndPopOfTheCallStack, CallPushesAndReturnPops, StackFaultsHalt: depths 0, 15 and 16. -/
theorem witness_depths : State.reset.sp = 0 ∧ (State.reset.setStack (List.replicate 15 0x202)).sp ≠ 16 ∧
    (State.reset.setStack (List.replicate 15 0x202)).sp ≠ 0 ∧ (State.reset.setStack (List.replicate 16 0x202)).sp = 16 ∧
    (State.reset.setStack [0x202, 0x206]).stack = [0x202] ++ [0x206] := by decide

/-- CallThenReturnRestoresThePc: the 16th call succeeds. -/
theorem witness_CallThenReturn : ∃ t, exec (.call 0x300) (State.reset.setStack (List.replicate 15 0x202)) = .next t ∧
    t.runState ≠ .halted ∧ t.stack = t.stack := ⟨_, rfl, by decide, rfl⟩

/-- FontAddressSelectsTheGlyph: the last digit and the first value that is none. -/
theorem witness_FontAddress : ((State.reset.setV 1 15).vreg 1).toNat ≤ 15 ∧ 15 < ((State.reset.setV 1 16).vreg 1).toNat := by
  decide

/-- BcdDigitsAreStored, RegisterDumpStoresTheRange, RegisterLoadReadsTheRange: the last places that fit. -/
theorem witness_last_places : (put State.reset 0x300 [1]).mem.wf ∧ (State.reset.setI 0xFFD).indexAddr + 2 < Config.memSize ∧
    (State.reset.setI 0xFF0).indexAddr + (0xF : RegIdx).toNat < Config.memSize := by decide

/-- AccessOutsideMemoryHalts: the first places that do not fit, for each of the four. -/
theorem witness_first_places_outside : Config.memSize ≤ (State.reset.setI 0xFFE).i.toNat + 2 ∧
    Config.memSize ≤ (State.reset.setI 0xFF1).i.toNat + (0xF : RegIdx).toNat ∧
    (1 : Nibble) ≠ 0 ∧ Config.memSize < (State.reset.setI 0x1000).i.toNat + (1 : Nibble).toNat := by decide

/-- DumpThenLoadRestoresTheRegisters and StoreIsSeenByTheNextFetch: a dump of two registers that completes, in Running. -/
theorem witness_dump : ∃ t, exec (.ldMemVx 1) ((State.reset.setV 0 0x12).setI 0xFFE) = .next t ∧ t.runState = .running ∧
    ((State.reset.setV 0 0x12).setI 0xFFE).mem.wf ∧ 1 ≤ (1 : RegIdx).toNat ∧
    ((State.reset.setV 0 0x12).setI 0xFFE).runState = .running ∧ t.runState ≠ .halted :=
  ⟨_, rfl, by decide, by decide, by decide, by decide, by decide⟩

/-- MemoryReadsTheMostRecentWrite: a canonical memory, the last address, and two memories that read alike. -/
theorem witness_memory : Memory.wf [(0x300, 1)] ∧ 0xFFF < Config.memSize ∧
    (∀ a, Memory.read [(0x300, 1)] a = Memory.read [(0x300, 1)] a) := ⟨by decide, by decide, fun _ => rfl⟩

/-- DrawXorsTheSprite: no rows with `I` outside memory, and 15 rows that end with memory. -/
theorem witness_Draw : ((0 : Nibble) = 0 ∨ (State.reset.setI 0xFFFF).indexAddr + (0 : Nibble).toNat ≤ Config.memSize) ∧
    ((0xF : Nibble) = 0 ∨ (State.reset.setI 0xFF1).indexAddr + (0xF : Nibble).toNat ≤ Config.memSize) := by decide

/-- DrawingTwiceRestoresTheDisplay: the glyph of digit 0, drawn. -/
theorem witness_DrawingTwice : (1 : RegIdx) ≠ 0xF#4 ∧ (0xE : RegIdx) ≠ 0xF#4 ∧
    ∃ t, exec (.drw 1 0xE 5) State.reset = .next t ∧ t.runState ≠ .halted :=
  ⟨by decide, by decide, _, rfl, by decide⟩

/-- KeyReadDeliversTheReportedKey: a read begins, and steps and ticks follow. -/
theorem witness_KeyRead : ∃ t, exec (.ldVxK 0xF) State.reset = .next t ∧
    ∀ o ∈ [HostOp.tick, .step 0xFFFF 0xFF], o = .tick ∨ ∃ keys r, o = .step keys r :=
  ⟨_, rfl, by simp⟩

/-- UnknownWordsOnlyAdvanceThePc: the last fetchable word is UNKNOWN. -/
theorem witness_Unknown : (z 0xFFE 0xFFFF).runState = .running ∧ (z 0xFFE 0xFFFF).pc.toNat + 1 < Config.memSize ∧
    (decodeWord (wordOfBytes ((z 0xFFE 0xFFFF).mem.read 0xFFE) ((z 0xFFE 0xFFFF).mem.read 0xFFF))).kind = .unknown := by
  decide

/-- ResetEntersAtTheEntryPoint, OversizeProgramFailsConstruction, ResetValuesDecidedByTheSpec: a reset that answers, and
lengths on both sides of the limit. -/
theorem witness_Reset : (nextOf (applyOp (.reset [0x60, 0x05]) stopped)).map (·.pc) = some 0x200 ∧
    (List.replicate 3584 (0 : Byte)).length ≤ 3584 ∧ 3584 < (List.replicate 3585 (0 : Byte)).length :=
  ⟨by decide, List.length_replicate.le, List.length_replicate.symm ▸ by omega⟩

/-- ElementsChangeOnlyByTheirInstructions, RegistersChangeOnlyAsTheSpecLists, InputsReachOnlyTheirInstructions,
SoundTimerIsReadByNoInstruction: an instruction that completes and is on none of their lists, and one flag writer. -/
theorem witness_whole_machine : (∃ t, exec (.ldImm 1 5) State.reset = .next t) ∧
    (Instr.ldImm 1 5).kind ∉ [.rnd, .skp, .sknp, .ldI, .ret, .call, .cls, .ldB, .ldMemVx] ∧ writesReg (.ldImm 1 5) 2 = false ∧
    (∃ t, exec (.drw 1 2 1) State.reset = .next t ∧ t.runState = State.reset.runState ∧ State.reset.runState ≠ .halted) :=
  ⟨⟨_, rfl⟩, by decide, by decide, _, rfl, by decide, by decide⟩

/-- OnlySixInstructionsRaise: one state in which each of the six raises, and one in which none does. -/
theorem witness_OnlySix : State.reset.runState = .running ∧
    ([.ret, .drw 1 2 1, .ldB 1, .ldMemVx 1, .ldVxMem 1].map fun i =>
      (nextOf (exec i (State.reset.setI 0x1000))).map (·.runState)) = List.replicate 5 (some .halted) ∧
    (nextOf (exec (.call 0) (State.reset.setStack (List.replicate 16 0)))).map (·.runState) = some .halted ∧
    ([.ret, .drw 1 2 1, .ldB 1, .ldMemVx 1, .ldVxMem 1, .call 0].map fun i =>
      (nextOf (exec i (State.reset.setStack [0]))).map (·.runState)) = List.replicate 6 (some .running) := by decide

/-- KeyLatchIsNotReadWhileRunning: two states that differ in the latch both step. -/
theorem witness_KeyLatch : (z 0x200 0x6005).runState = .running ∧ ∃ t u, step (z 0x200 0x6005) = .next t ∧
    step { z 0x200 0x6005 with keyLatch := some 5 } = .next u := ⟨by decide, _, _, rfl, rfl⟩

/-- OutputsFollowTheState: each halt cause, and a state that meets the invariant. -/
theorem witness_Outputs : State.reset.haltCause = none ∧
    ([.stackOverflow, .stackUnderflow, .memOutOfRange].map fun c => (State.reset.raise ⟨c, none⟩).haltCause) =
      [some .stackOverflow, some .stackUnderflow, some .memOutOfRange] ∧ State.reset.Inv :=
  ⟨by decide, by decide, ⟨by decide, by decide, by decide⟩⟩

/-- PlacedWordIsTheNextInstruction: a canonical memory, and a state whose `PC` no fetch can use. -/
theorem witness_PlacedWord : (State.reset.setPc 0xFFF).mem.wf ∧
    (nextOf (step ((State.reset.setPc 0xFFF).withFetchWord 16 0x6005))).map (fun t => (t.vreg 0, t.pc)) =
      some (5, 0x202) := by decide

end Sys2Proof.Tests
end

section
/-!
The array view of the call stack (R28 to R30): entry `k` of `STACK` is `stack[k]?` and `SP` is the length of the list.
-/
namespace Sys2Proof.Machine

/-- `SP` counts the entries in use, so depth 0 is the empty list (R28). -/
theorem sp_eq_zero_iff (s : State) : s.sp = 0 ↔ s.stack = [] := List.length_eq_zero_iff

/-- A push onto a full stack raises and answers no state (R29). -/
theorem push_of_full {s : State} (w : Word) (h : s.sp = Config.stackDepth) :
    s.push w = .error ⟨.stackOverflow, some w.toNat⟩ := by
  rcases push_cases s w with ⟨-, hpush⟩ | ⟨hne, -⟩
  · exact hpush
  · exact absurd h hne

/-- A push onto a stack that is not full appends the value (R29). -/
theorem push_of_not_full {s : State} (w : Word) (h : s.sp ≠ Config.stackDepth) :
    s.push w = .ok (s.setStack (s.stack ++ [w])) := by
  rcases push_cases s w with ⟨heq, -⟩ | ⟨-, hpush⟩
  · exact absurd heq h
  · exact hpush

/-- A pop of the empty stack raises and answers no state (R30). -/
theorem pop_of_empty {s : State} (h : s.sp = 0) : s.pop = .error ⟨.stackUnderflow, none⟩ := by
  rcases pop_cases s with ⟨-, hpop⟩ | ⟨l, w, hl, -⟩
  · exact hpop
  · simp [(sp_eq_zero_iff s).mp h] at hl

/-- A pop of a stack in use splits the last value off (R30). -/
theorem pop_of_nonempty {s : State} (h : s.sp ≠ 0) :
    ∃ l w, s.stack = l ++ [w] ∧ s.pop = .ok (w, s.setStack l) := by
  rcases pop_cases s with ⟨hnil, -⟩ | hpop
  · exact absurd ((sp_eq_zero_iff s).mpr hnil) h
  · exact hpop

/-- The array view of a push that completes: `STACK[SP]` is the value, the entries below `SP` stay, `SP` grows by one. -/
theorem push_array_view {s : State} (w : Word) (h : s.sp ≠ Config.stackDepth) :
    ∃ t, s.push w = .ok t ∧ t.sp = s.sp + 1 ∧ t.stack[s.sp]? = some w ∧
      (∀ k, k < s.sp → t.stack[k]? = s.stack[k]?) ∧ t = { s with stack := t.stack } := by
  refine ⟨_, push_of_not_full w h, ?_, ?_, fun k hk => ?_, rfl⟩
  · simp [State.sp]
  · exact List.getElem?_concat_length
  · exact List.getElem?_append_left hk

/-- The array view of a pop that completes: the answer is `STACK[SP - 1]`, the entries below it stay, `SP` shrinks by
one. -/
theorem pop_array_view {s : State} (h : s.sp ≠ 0) :
    ∃ v t, s.pop = .ok (v, t) ∧ t.sp = s.sp - 1 ∧ s.stack[t.sp]? = some v ∧
      (∀ k, k < t.sp → t.stack[k]? = s.stack[k]?) ∧ t = { s with stack := t.stack } := by
  obtain ⟨l, w, hl, hpop⟩ := pop_of_nonempty h
  refine ⟨w, _, hpop, ?_, ?_, fun k hk => ?_, rfl⟩
  · simp [State.sp, hl]
  · rw [hl]
    exact List.getElem?_concat_length
  · rw [hl]
    exact (List.getElem?_append_left hk).symm

/-- Settles O26: the two fatal conditions and the array views of push and pop (`Config.stackDepth` is 16). -/
theorem pushAndPopOfTheCallStack : Obligations.PushAndPopOfTheCallStack := fun _ w =>
  ⟨push_of_full w, push_array_view w, pop_of_empty, pop_array_view⟩

end Sys2Proof.Machine
end

section
/-!
The terminal run state (R127): what a step with arguments and the other host operations do in Halted.
-/
namespace Sys2Proof.Machine

/-- A step with arguments answers what `step` answers for the state that presents them, without the arguments (R39). -/
theorem stepWith_of_step {keys : BitVec 16} {r : Byte} {s t : State} (h : step (s.present keys r) = .next t) :
    stepWith keys r s = .next t.dropInputs := by
  unfold stepWith; rw [h]

/-- In Halted a step with arguments clears the effects of the step before it and drops its arguments (R127, R39). -/
theorem stepWith_halted {s : State} (h : s.runState = .halted) (keys : BitVec 16) (r : Byte) :
    stepWith keys r s = .next s.clearEffects.dropInputs :=
  have hp : (s.present keys r).runState = .halted := h
  calc
    stepWith keys r s = .next (s.present keys r).clearEffects.dropInputs := stepWith_of_step (step_halted hp)
    _ = .next s.clearEffects.dropInputs := rfl

/-- Each operation but `reset` answers in Halted, and the machine is still halted (R127). -/
theorem applyOp_keeps_halted {s : State} (h : s.runState = .halted) (o : HostOp)
    (ho : ∀ program, o ≠ .reset program) : ∃ t, applyOp o s = .next t ∧ t.runState = .halted := by
  cases o with
  | reset program => exact absurd rfl (ho program)
  | step keys r => exact ⟨_, stepWith_halted h keys r, h⟩
  | tick => exact ⟨s.tick, rfl, h⟩
  | reportKey k => exact ⟨s.reportKey k, rfl, h⟩
  | clearDirty => exact ⟨s.clearDirty, rfl, h⟩

/-- Settles O10: the step without and with arguments, then the operations one by one. -/
theorem haltedIsTerminal : Obligations.HaltedIsTerminal := fun _ h =>
  ⟨step_halted h, stepWith_halted h, applyOp_keeps_halted h⟩

end Sys2Proof.Machine
end

section
/-!
Control transfer without the stack (R161, R163 to R167): the targets of the two jumps, and the one lemma of the four
register skips, `skip_completes`, which holds for any condition a skip may test.
-/
namespace Sys2Proof.Machine

/-! ### The jumps -/

/-- Zero-extension keeps the value of an address operand (R93). -/
theorem addrOperand_toNat (nnn : Addr12) : (addrOperand nnn).toNat = nnn.toNat :=
  BitVec.toNat_setWidth_of_le (by decide)

/-- Zero-extension keeps the value of a register (R167, R211). -/
theorem wideOperand_toNat (b : Byte) : (wideOperand b).toNat = b.toNat :=
  BitVec.toNat_setWidth_of_le (by decide)

/-- The sum of R167 is at most 255 + 4095, so it does not wrap at 16 bits. -/
theorem wideOperand_add_addrOperand_toNat (b : Byte) (nnn : Addr12) :
    (wideOperand b + addrOperand nnn).toNat = b.toNat + nnn.toNat := by
  have hb := b.isLt
  have hn := nnn.isLt
  rw [BitVec.toNat_add_of_lt, wideOperand_toNat, addrOperand_toNat]
  rw [wideOperand_toNat, addrOperand_toNat]
  omega

theorem exec_jp (nnn : Addr12) (s : State) : exec (.jp nnn) s = .next (s.setPc (addrOperand nnn)) := rfl

theorem exec_jpV0 (nnn : Addr12) (s : State) :
    exec (.jpV0 nnn) s = .next (s.setPc (wideOperand (s.vreg 0) + addrOperand nnn)) := rfl

/-- Settles O24: the words by `Laws.RoundTrip`, the targets by the values of the operands. -/
theorem jumpsSetThePc : Obligations.JumpsSetThePc := fun nnn s =>
  ⟨⟨Laws.RoundTrip.jp nnn rfl, Laws.RoundTrip.jpV0 nnn rfl⟩,
    ⟨_, exec_jp nnn s, addrOperand_toNat nnn, rfl⟩,
    ⟨_, exec_jpV0 nnn s, wideOperand_add_addrOperand_toNat (s.vreg 0) nnn, rfl⟩⟩

/-! ### The skips -/

/-- A skip changes `PC` only. -/
theorem skipIf_frame (s : State) (c : Bool) : s.skipIf c = { s with pc := (s.skipIf c).pc } := by
  rw [skipIf_eq]
  rfl

/-- `PC` after a skip whose condition computes `p`: 2 more, modulo 65536, exactly when `p` holds (R163, R25). -/
theorem skipIf_pc_toNat (s : State) {c : Bool} {p : Prop} [Decidable p] (hc : c = true ↔ p) :
    (s.skipIf c).pc.toNat = if p then (s.pc.toNat + 2) % 65536 else s.pc.toNat := by
  rw [skipIf_eq, setPc_pc]
  by_cases hp : p
  · rw [if_pos (hc.mpr hp), if_pos hp]
    exact BitVec.toNat_add s.pc 2
  · rw [if_neg (mt hc.mp hp), if_neg hp]

/-- An instruction that only skips completes, changes nothing but `PC`, and advances it exactly when `p` holds. -/
theorem skip_completes {i : Instr} {s : State} {c : Bool} {p : Prop} [Decidable p]
    (hexec : exec i s = .next (s.skipIf c)) (hc : c = true ↔ p) :
    ∃ t, exec i s = .next t ∧ t = { s with pc := t.pc } ∧
      t.pc.toNat = if p then (s.pc.toNat + 2) % 65536 else s.pc.toNat :=
  ⟨_, hexec, skipIf_frame s c, skipIf_pc_toNat s hc⟩

theorem exec_seImm (x : RegIdx) (nn : Byte) (s : State) :
    exec (.seImm x nn) s = .next (s.skipIf (s.vreg x == nn)) := rfl

theorem exec_sneImm (x : RegIdx) (nn : Byte) (s : State) :
    exec (.sneImm x nn) s = .next (s.skipIf (s.vreg x != nn)) := rfl

theorem exec_seReg (x y : RegIdx) (s : State) :
    exec (.seReg x y) s = .next (s.skipIf (s.vreg x == s.vreg y)) := rfl

theorem exec_sneReg (x y : RegIdx) (s : State) :
    exec (.sneReg x y) s = .next (s.skipIf (s.vreg x != s.vreg y)) := rfl

/-- Settles O25: the words by `Laws.RoundTrip`, each skip by `skip_completes` with its comparison of all 8 bits. -/
theorem skipsCompareRegisters : Obligations.SkipsCompareRegisters := fun x y nn s =>
  ⟨⟨Laws.RoundTrip.seImm x nn rfl, Laws.RoundTrip.sneImm x nn rfl, Laws.RoundTrip.seReg x y rfl,
      Laws.RoundTrip.sneReg x y rfl⟩,
    skip_completes (exec_seImm x nn s) beq_iff_eq,
    skip_completes (exec_sneImm x nn s) bne_iff_ne,
    skip_completes (exec_seReg x y s) beq_iff_eq,
    skip_completes (exec_sneReg x y s) bne_iff_ne⟩

end Sys2Proof.Machine
end

section
/-!
Loading and adding an immediate (R180, R181): one write to one register, with the three facts that say all of such a write.
-/
namespace Sys2Proof.Machine

/-! ### One register write -/

/-- The register written reads as the value written. -/
theorem vreg_setV_same (s : State) (x : RegIdx) (b : Byte) : (s.setV x b).vreg x = b := by
  rw [vreg_setV, if_pos rfl]

/-- Every other register reads as before. -/
theorem vreg_setV_of_ne (s : State) {x r : RegIdx} (b : Byte) (h : r ≠ x) : (s.setV x b).vreg r = s.vreg r := by
  rw [vreg_setV, if_neg h]

/-- A register write changes the register file only. -/
theorem setV_frame (s : State) (x : RegIdx) (b : Byte) : s.setV x b = { s with v := (s.setV x b).v } := rfl

/-! ### The two instructions -/

theorem exec_ldImm (x : RegIdx) (nn : Byte) (s : State) : exec (.ldImm x nn) s = .next (s.setV x nn) := rfl

theorem exec_addImm (x : RegIdx) (nn : Byte) (s : State) :
    exec (.addImm x nn) s = .next (s.setV x (s.vreg x + nn)) := rfl

/-- `ADD Vx, NN` leaves the sum modulo 256 in `V[X]` (R181). -/
theorem vreg_setV_add_toNat (s : State) (x : RegIdx) (nn : Byte) :
    ((s.setV x (s.vreg x + nn)).vreg x).toNat = ((s.vreg x).toNat + nn.toNat) % 256 := by
  rw [vreg_setV_same]
  exact BitVec.toNat_add (s.vreg x) nn

/-- Settles O19: the words by `Laws.RoundTrip`, then the value, the other registers and the frame of the one write. -/
theorem loadAndAddImmediate : Obligations.LoadAndAddImmediate := fun x nn s =>
  ⟨⟨Laws.RoundTrip.ldImm x nn rfl, Laws.RoundTrip.addImm x nn rfl⟩,
    ⟨_, exec_ldImm x nn s, vreg_setV_same s x nn, fun _ => vreg_setV_of_ne s nn, setV_frame s x nn⟩,
    ⟨_, exec_addImm x nn s, vreg_setV_add_toNat s x nn, fun _ => vreg_setV_of_ne s (s.vreg x + nn),
      setV_frame s x (s.vreg x + nn)⟩⟩

end Sys2Proof.Machine
end

section
/-!
Loading and adding to the index register (R210, R211): one write to `I`, whose value is an operand zero-extended to 16 bits
or the sum of `I` and such an operand.
-/
namespace Sys2Proof.Machine

/-- An index write changes `I` only. -/
theorem setI_frame (s : State) (w : Word) : s.setI w = { s with i := (s.setI w).i } := rfl

theorem exec_ldI (nnn : Addr12) (s : State) : exec (.ldI nnn) s = .next (s.setI (addrOperand nnn)) := rfl

theorem exec_addI (x : RegIdx) (s : State) :
    exec (.addI x) s = .next (s.setI (s.i + wideOperand (s.vreg x))) := rfl

/-- `LD I, NNN` leaves the address operand in `I` (R210). -/
theorem setI_addrOperand_toNat (s : State) (nnn : Addr12) : (s.setI (addrOperand nnn)).i.toNat = nnn.toNat := by
  rw [setI_i]
  exact addrOperand_toNat nnn

/-- `ADD I, Vx` leaves the sum modulo 65536 in `I`: the register is widened before the sum, so only the 16-bit sum wraps
(R211). -/
theorem setI_add_toNat (s : State) (b : Byte) :
    (s.setI (s.i + wideOperand b)).i.toNat = (s.i.toNat + b.toNat) % 65536 :=
  calc
    (s.setI (s.i + wideOperand b)).i.toNat = (s.i + wideOperand b).toNat := by rw [setI_i]
    _ = (s.i.toNat + (wideOperand b).toNat) % 65536 := BitVec.toNat_add s.i (wideOperand b)
    _ = (s.i.toNat + b.toNat) % 65536 := by rw [wideOperand_toNat]

/-- Settles O30: the words by `Laws.RoundTrip`, then the value and the frame of the one write to `I`. -/
theorem loadAndAddToIndex : Obligations.LoadAndAddToIndex := fun nnn x s =>
  ⟨⟨Laws.RoundTrip.ldI nnn rfl, Laws.RoundTrip.addI x rfl⟩,
    ⟨_, exec_ldI nnn s, setI_addrOperand_toNat s nnn, setI_frame s (addrOperand nnn)⟩,
    ⟨_, exec_addI x s, setI_add_toNat s (s.vreg x), setI_frame s (s.i + wideOperand (s.vreg x))⟩⟩

end Sys2Proof.Machine
end

section
/-!
The timers as instructions see them (R232, R234, R235): one register write from `DT`, one write of each timer, and the
output that follows `ST`.
-/
namespace Sys2Proof.Machine

theorem exec_ldVxDt (x : RegIdx) (s : State) : exec (.ldVxDt x) s = .next (s.setV x s.dt) := rfl

theorem exec_ldDtVx (x : RegIdx) (s : State) : exec (.ldDtVx x) s = .next (s.setDt (s.vreg x)) := rfl

theorem exec_ldStVx (x : RegIdx) (s : State) : exec (.ldStVx x) s = .next (s.setSt (s.vreg x)) := rfl

/-- A write of the delay timer replaces the count, whatever it was, and changes nothing else (R234). -/
theorem setDt_frame (s : State) (b : Byte) : s.setDt b = { s with dt := b } := rfl

/-- A write of the sound timer replaces the count, whatever it was, and changes nothing else (R235). -/
theorem setSt_frame (s : State) (b : Byte) : s.setSt b = { s with st := b } := rfl

/-- The output `sound_active` is a level: on exactly while `ST` is not 0 (R235). -/
theorem outputs_soundActive_iff (s : State) : s.outputs.soundActive = true ↔ s.st ≠ 0 := bne_iff_ne

/-- The output `sound_active` follows a write of `ST` at once. -/
theorem soundActive_setSt_iff (s : State) (b : Byte) : (s.setSt b).outputs.soundActive = true ↔ b ≠ 0 := by
  rw [outputs_soundActive_iff, setSt_st]

/-- Settles O43: the words by `Laws.RoundTrip`, the read as one register write, the two timer writes by their frames. -/
theorem timerReadAndWrites : Obligations.TimerReadAndWrites := fun x s =>
  ⟨⟨Laws.RoundTrip.ldVxDt x rfl, Laws.RoundTrip.ldDtVx x rfl, Laws.RoundTrip.ldStVx x rfl⟩,
    ⟨_, exec_ldVxDt x s, vreg_setV_same s x s.dt, fun _ => vreg_setV_of_ne s s.dt, setV_frame s x s.dt⟩,
    (exec_ldDtVx x s).trans (congrArg _ (setDt_frame s (s.vreg x))),
    ⟨_, exec_ldStVx x s, setSt_frame s (s.vreg x), soundActive_setSt_iff s (s.vreg x)⟩⟩

end Sys2Proof.Machine
end

section
/-!
The tick of the timers (R270): one fact about a count that stops at 0, which holds of `DT` and of `ST` alike.
-/
namespace Sys2Proof.Machine

/-- A count that is decremented unless it is 0 is the truncated predecessor: the 8-bit subtraction never wraps (R270). -/
theorem decrementUnlessZero_toNat (b : Byte) : (if b = 0 then 0 else b - 1).toNat = b.toNat - 1 := by
  by_cases hb : b = 0
  · rw [if_pos hb, hb]
    rfl
  · have hone : (1 : Byte) ≤ b := BitVec.le_def.mpr (BitVec.toNat_pos_of_ne_zero hb)
    rw [if_neg hb]
    exact BitVec.toNat_sub_of_le hone

theorem tick_dt_toNat (s : State) : s.tick.dt.toNat = s.dt.toNat - 1 := by
  rw [tick_dt]
  exact decrementUnlessZero_toNat s.dt

theorem tick_st_toNat (s : State) : s.tick.st.toNat = s.st.toNat - 1 := by
  rw [tick_st]
  exact decrementUnlessZero_toNat s.st

theorem applyOp_tick (s : State) : applyOp .tick s = .next s.tick := rfl

/-- A tick changes the two timers only. -/
theorem tick_frame (s : State) : s.tick = { s with dt := s.tick.dt, st := s.tick.st } := rfl

/-- Settles O46: the count of each timer on its own, then the frame. -/
theorem tickDecrementsTheTimers : Obligations.TickDecrementsTheTimers := fun s =>
  ⟨applyOp_tick s, tick_dt_toNat s, tick_st_toNat s, tick_frame s⟩

end Sys2Proof.Machine
end

section
/-!
The host operation `reset` (R300, R301): the program is one `Memory.writeAll` into the memory of reset, and `read_writeAll`
says what reads give after it.
-/
namespace Sys2Proof.Machine

/-- The memory that `reset` leaves: the program at `PROG_BASE` over the memory of reset (R300). -/
def programMemory (program : List Byte) : Memory := State.reset.mem.writeAll Config.progBase program

theorem reset_mem_wf : State.reset.mem.wf := by decide

/-- From `PROG_BASE` to the end of `MEM` there are 3584 bytes (R301, D1; log 4). -/
theorem maxProgramLength_eq : maxProgramLength = 3584 := rfl

theorem progBase_add_maxProgramLength : Config.progBase + maxProgramLength = Config.memSize := rfl

/-- `reset` with a program that fits answers a state, whose memory is that of reset with the program in it (R300). -/
theorem applyOp_reset_of_fits {program : List Byte} (s : State) (h : program.length ≤ maxProgramLength) :
    ∃ t, applyOp (.reset program) s = .next t ∧ t.mem = programMemory program :=
  ⟨_, if_pos h, rfl⟩

/-- `reset` with a program that does not fit is a construction failure (R301). -/
theorem applyOp_reset_of_oversize {program : List Byte} (s : State) (h : maxProgramLength < program.length) :
    applyOp (.reset program) s = .fault (.programTooLarge program.length) :=
  if_neg (Nat.not_le_of_lt h)

/-- After `reset` the address `PROG_BASE + k` holds byte `k` of a program that fits (R300). -/
theorem read_programMemory {program : List Byte} {k : Nat} (h : program.length ≤ maxProgramLength)
    (hk : k < program.length) : (programMemory program).read (Config.progBase + k) = program.getD k 0 := by
  have hend : Config.progBase + program.length ≤ Config.memSize := by
    rw [← progBase_add_maxProgramLength]
    exact Nat.add_le_add_left h _
  have hin : Config.progBase ≤ Config.progBase + k ∧ Config.progBase + k < Config.progBase + program.length :=
    ⟨Nat.le_add_right _ _, Nat.add_lt_add_left hk _⟩
  rw [programMemory, read_writeAll reset_mem_wf hend, if_pos hin, Nat.add_sub_cancel_left]

/-- Settles O51: a program that fits reads back from the memory of the answered state, and a longer one fails. -/
theorem oversizeProgramFailsConstruction : Obligations.OversizeProgramFailsConstruction := by
  intro program s
  rw [← maxProgramLength_eq]
  refine ⟨fun hfits => ?_, applyOp_reset_of_oversize s⟩
  obtain ⟨t, ht, hmem⟩ := applyOp_reset_of_fits s hfits
  refine ⟨t, ht, fun k hk => ?_⟩
  rw [hmem]
  exact read_programMemory hfits hk

end Sys2Proof.Machine
end

section
/-!
The decoder and the encoder (R96, R98, R107). The plan: `Laws.RoundTrip` decodes every encoding, a word that selects a row of
the opcode map is an encoding of that row's kind, and a word that selects none is UNKNOWN. The statements on decoding follow
from these three without a further look into the decoder, but for the table of R100.
-/
namespace Sys2Proof

/-! ### Decoding an encoding -/

/-- The family `Laws.RoundTrip` as one statement. -/
theorem decodeWord_encodeWord : ∀ i : Instr, i.wf = true → decodeWord (encodeWord i) = i
  | .cls => Laws.RoundTrip.cls
  | .ret => Laws.RoundTrip.ret
  | .jp nnn => Laws.RoundTrip.jp nnn
  | .call nnn => Laws.RoundTrip.call nnn
  | .seImm x nn => Laws.RoundTrip.seImm x nn
  | .sneImm x nn => Laws.RoundTrip.sneImm x nn
  | .seReg x y => Laws.RoundTrip.seReg x y
  | .ldImm x nn => Laws.RoundTrip.ldImm x nn
  | .addImm x nn => Laws.RoundTrip.addImm x nn
  | .ldReg x y => Laws.RoundTrip.ldReg x y
  | .orReg x y => Laws.RoundTrip.orReg x y
  | .andReg x y => Laws.RoundTrip.andReg x y
  | .xorReg x y => Laws.RoundTrip.xorReg x y
  | .addReg x y => Laws.RoundTrip.addReg x y
  | .subReg x y => Laws.RoundTrip.subReg x y
  | .shr x y => Laws.RoundTrip.shr x y
  | .subnReg x y => Laws.RoundTrip.subnReg x y
  | .shl x y => Laws.RoundTrip.shl x y
  | .sneReg x y => Laws.RoundTrip.sneReg x y
  | .ldI nnn => Laws.RoundTrip.ldI nnn
  | .jpV0 nnn => Laws.RoundTrip.jpV0 nnn
  | .rnd x nn => Laws.RoundTrip.rnd x nn
  | .drw x y n => Laws.RoundTrip.drw x y n
  | .skp x => Laws.RoundTrip.skp x
  | .sknp x => Laws.RoundTrip.sknp x
  | .ldVxDt x => Laws.RoundTrip.ldVxDt x
  | .ldVxK x => Laws.RoundTrip.ldVxK x
  | .ldDtVx x => Laws.RoundTrip.ldDtVx x
  | .ldStVx x => Laws.RoundTrip.ldStVx x
  | .addI x => Laws.RoundTrip.addI x
  | .ldF x => Laws.RoundTrip.ldF x
  | .ldB x => Laws.RoundTrip.ldB x
  | .ldMemVx x => Laws.RoundTrip.ldMemVx x
  | .ldVxMem x => Laws.RoundTrip.ldVxMem x
  | .unknown w => Laws.RoundTrip.unknown w

/-- Settles O1: the two bytes give the word back (`wordOfBytes_hi_lo`), and the word decodes to its instruction. -/
theorem decodeOfEncodeIsTheInstruction : Obligations.DecodeOfEncodeIsTheInstruction := by
  intro i rest hwf
  have hword : decodeWord (wordOfBytes (hiByte (encodeWord i)) (loByte (encodeWord i))) = i := by
    rw [wordOfBytes_hi_lo, decodeWord_encodeWord i hwf]
  exact congrArg (fun j => Except.ok (j, rest)) hword

/-- Settles O6: each sample word is the encoding of its instruction. -/
theorem sampleWordsDecodeAsThePatternsSay : Obligations.SampleWordsDecodeAsThePatternsSay :=
  ⟨Laws.RoundTrip.cls rfl, Laws.RoundTrip.drw 1 2 5 rfl, Laws.RoundTrip.call 0x208 rfl,
    Laws.RoundTrip.seReg 1 2 rfl, Laws.RoundTrip.addReg 0 1 rfl, Laws.RoundTrip.rnd 3 0x0F rfl,
    Laws.RoundTrip.ldMemVx 2 rfl, Laws.RoundTrip.skp 4 rfl, Laws.RoundTrip.ldVxK 3 rfl,
    Laws.RoundTrip.unknown 0x5121 (by decide)⟩

/-! ### A word that selects a row is an encoding -/

theorem wordA_of_masked {w m : Word} (h : w &&& 0xF000#16 = m) : wordA m (nnnOf w) = w := by
  rw [← h, and_F000, word_of_fam_nnn]

theorem wordXI_of_masked {w m : Word} (h : w &&& 0xF000#16 = m) : wordXI m (xOf w) (nnOf w) = w := by
  rw [← h, and_F000, word_of_fam_x_nn]

theorem wordXYN_of_masked {w m : Word} (h : w &&& 0xF000#16 = m) : wordXYN m (xOf w) (yOf w) (nOf w) = w := by
  rw [← h, and_F000, word_of_fam_x_y_n]

/-- In format `XY` the low nibble belongs to the match value. -/
theorem wordXY_of_masked {w m : Word} (h : w &&& 0xF00F#16 = m) : wordXYN m (xOf w) (yOf w) 0 = w := by
  subst h
  ext k hk; interval_cases k <;> simp [wordXYN, xOf, yOf]

/-- In format `XS` the low byte belongs to the match value. -/
theorem wordXS_of_masked {w m : Word} (h : w &&& 0xF0FF#16 = m) : wordXS m (xOf w) = w := by
  subst h
  ext k hk; interval_cases k <;> simp [wordXS, xOf]

/-- `w` is the word of a well-formed instruction of kind `k`. -/
def EncodesKind (w : Word) (k : OpKind) : Prop := ∃ i : Instr, i.wf = true ∧ i.kind = k ∧ encodeWord i = w

/-- A word that selects a row of `rows` encodes an instruction of the row's kind. -/
def SelectionEncodes (w : Word) (rows : List OpcodeRow) : Prop :=
  ∀ r ∈ rows, w &&& r.mask = r.pattern → EncodesKind w r.kind

theorem selectionEncodes_rowsA (w : Word) : SelectionEncodes w opcodeRowsA := by
  simp only [SelectionEncodes, opcodeRowsA, List.forall_mem_cons]
  exact ⟨fun h => ⟨.cls, rfl, rfl, h.symm.trans (and_FFFF w)⟩,
    fun h => ⟨.ret, rfl, rfl, h.symm.trans (and_FFFF w)⟩,
    fun h => ⟨.jp (nnnOf w), rfl, rfl, wordA_of_masked h⟩,
    fun h => ⟨.call (nnnOf w), rfl, rfl, wordA_of_masked h⟩,
    fun h => ⟨.seImm (xOf w) (nnOf w), rfl, rfl, wordXI_of_masked h⟩,
    fun h => ⟨.sneImm (xOf w) (nnOf w), rfl, rfl, wordXI_of_masked h⟩,
    fun h => ⟨.seReg (xOf w) (yOf w), rfl, rfl, wordXY_of_masked h⟩,
    fun h => ⟨.ldImm (xOf w) (nnOf w), rfl, rfl, wordXI_of_masked h⟩,
    fun h => ⟨.addImm (xOf w) (nnOf w), rfl, rfl, wordXI_of_masked h⟩,
    List.forall_mem_nil _⟩

theorem selectionEncodes_rowsB (w : Word) : SelectionEncodes w opcodeRowsB := by
  simp only [SelectionEncodes, opcodeRowsB, List.forall_mem_cons]
  exact ⟨fun h => ⟨.ldReg (xOf w) (yOf w), rfl, rfl, wordXY_of_masked h⟩,
    fun h => ⟨.orReg (xOf w) (yOf w), rfl, rfl, wordXY_of_masked h⟩,
    fun h => ⟨.andReg (xOf w) (yOf w), rfl, rfl, wordXY_of_masked h⟩,
    fun h => ⟨.xorReg (xOf w) (yOf w), rfl, rfl, wordXY_of_masked h⟩,
    fun h => ⟨.addReg (xOf w) (yOf w), rfl, rfl, wordXY_of_masked h⟩,
    fun h => ⟨.subReg (xOf w) (yOf w), rfl, rfl, wordXY_of_masked h⟩,
    fun h => ⟨.shr (xOf w) (yOf w), rfl, rfl, wordXY_of_masked h⟩,
    fun h => ⟨.subnReg (xOf w) (yOf w), rfl, rfl, wordXY_of_masked h⟩,
    fun h => ⟨.shl (xOf w) (yOf w), rfl, rfl, wordXY_of_masked h⟩,
    fun h => ⟨.sneReg (xOf w) (yOf w), rfl, rfl, wordXY_of_masked h⟩,
    List.forall_mem_nil _⟩

theorem selectionEncodes_rowsC (w : Word) : SelectionEncodes w opcodeRowsC := by
  simp only [SelectionEncodes, opcodeRowsC, List.forall_mem_cons]
  exact ⟨fun h => ⟨.ldI (nnnOf w), rfl, rfl, wordA_of_masked h⟩,
    fun h => ⟨.jpV0 (nnnOf w), rfl, rfl, wordA_of_masked h⟩,
    fun h => ⟨.rnd (xOf w) (nnOf w), rfl, rfl, wordXI_of_masked h⟩,
    fun h => ⟨.drw (xOf w) (yOf w) (nOf w), rfl, rfl, wordXYN_of_masked h⟩,
    fun h => ⟨.skp (xOf w), rfl, rfl, wordXS_of_masked h⟩,
    fun h => ⟨.sknp (xOf w), rfl, rfl, wordXS_of_masked h⟩,
    fun h => ⟨.ldVxDt (xOf w), rfl, rfl, wordXS_of_masked h⟩,
    fun h => ⟨.ldVxK (xOf w), rfl, rfl, wordXS_of_masked h⟩,
    fun h => ⟨.ldDtVx (xOf w), rfl, rfl, wordXS_of_masked h⟩,
    fun h => ⟨.ldStVx (xOf w), rfl, rfl, wordXS_of_masked h⟩,
    fun h => ⟨.addI (xOf w), rfl, rfl, wordXS_of_masked h⟩,
    fun h => ⟨.ldF (xOf w), rfl, rfl, wordXS_of_masked h⟩,
    fun h => ⟨.ldB (xOf w), rfl, rfl, wordXS_of_masked h⟩,
    fun h => ⟨.ldMemVx (xOf w), rfl, rfl, wordXS_of_masked h⟩,
    fun h => ⟨.ldVxMem (xOf w), rfl, rfl, wordXS_of_masked h⟩,
    List.forall_mem_nil _⟩

theorem selectionEncodes_opcodeRows (w : Word) : SelectionEncodes w opcodeRows := by
  intro r hr
  simp only [opcodeRows, List.mem_append] at hr
  rcases hr with (hr | hr) | hr
  · exact selectionEncodes_rowsA w r hr
  · exact selectionEncodes_rowsB w r hr
  · exact selectionEncodes_rowsC w r hr

/-- A word that encodes an instruction of a kind decodes to that kind. -/
theorem kind_of_encodesKind {w : Word} {k : OpKind} (h : EncodesKind w k) : (decodeWord w).kind = k := by
  obtain ⟨i, hwf, hk, rfl⟩ := h
  rw [decodeWord_encodeWord i hwf, hk]

/-- A word that selects a row decodes to the row's kind (R98, one direction). -/
theorem kind_of_selects {w : Word} {r : OpcodeRow} (hr : r ∈ opcodeRows) (h : w &&& r.mask = r.pattern) :
    (decodeWord w).kind = r.kind :=
  kind_of_encodesKind (selectionEncodes_opcodeRows w r hr h)

/-! ### Every word selects a row or is UNKNOWN -/

theorem selects_or_unknown (w : Word) :
    (∃ r ∈ opcodeRows, w &&& r.mask = r.pattern) ∨ isUnknownWord w = true := by
  by_cases h : isUnknownWord w = true
  · exact .inr h
  · left
    simpa [isUnknownWord, OpcodeRow.selects] using h

/-- Every word is the encoding of some well-formed instruction. -/
theorem exists_encodesKind (w : Word) : ∃ k, EncodesKind w k := by
  rcases selects_or_unknown w with ⟨r, hr, h⟩ | h
  · exact ⟨r.kind, selectionEncodes_opcodeRows w r hr h⟩
  · exact ⟨.unknown, .unknown w, h, rfl, rfl⟩

/-- Settles O2: a word is the encoding of an instruction, which is what it decodes to. -/
theorem encodeOfDecodeIsTheWord : Obligations.EncodeOfDecodeIsTheWord := by
  intro w
  obtain ⟨_, i, hwf, -, rfl⟩ := exists_encodesKind w
  have hdec := decodeWord_encodeWord i hwf
  exact ⟨by rw [hdec, hwf], by rw [hdec], wordOfBytes_hi_lo _⟩

/-- No row of the map is for the UNKNOWN variant. -/
theorem opcodeRow_kind_ne_unknown : ∀ r ∈ opcodeRows, r.kind ≠ .unknown := by decide

/-- Two different rows of the map have different kinds. -/
theorem opcodeRows_kinds_pairwise_ne : opcodeRows.Pairwise fun r q => r.kind ≠ q.kind := by decide

/-- A row of the map is determined by its kind. -/
theorem opcodeRow_eq_of_kind_eq {r q : OpcodeRow} (hr : r ∈ opcodeRows) (hq : q ∈ opcodeRows) (h : r.kind = q.kind) :
    r = q :=
  List.inj_on_of_nodup_map (List.pairwise_map.mpr opcodeRows_kinds_pairwise_ne) hr hq h

/-- Settles O3: a word of the row's kind is not UNKNOWN, so it selects a row, which is the one row of that kind. -/
theorem decoderAgreesWithMatchAndMask : Obligations.DecoderAgreesWithMatchAndMask := by
  intro w r hr
  refine ⟨fun hk => ?_, kind_of_selects hr⟩
  rcases selects_or_unknown w with ⟨q, hq, hsel⟩ | hunk
  · have hqr : q = r := opcodeRow_eq_of_kind_eq hq hr ((kind_of_selects hq hsel).symm.trans hk)
    exact hqr ▸ hsel
  · rw [decodeWord_unknown hunk] at hk
    exact absurd hk.symm (opcodeRow_kind_ne_unknown r hr)

/-- Settles O4: a word that selects two rows decodes to the kinds of both, and different rows have different kinds. -/
theorem opcodePatternsAreDisjoint : Obligations.OpcodePatternsAreDisjoint := by
  refine List.Pairwise.imp_of_mem (fun {r q} hr hq hne w hsel => ?_) opcodeRows_kinds_pairwise_ne
  obtain ⟨hrsel, hqsel⟩ := hsel
  exact hne ((kind_of_selects hr hrsel).symm.trans (kind_of_selects hq hqsel))

/-! ### The table of UNKNOWN words (R100) -/

/-- Two words of one family differ in the low 12 bits, or not at all. -/
theorem eq_iff_nnnOf_eq {w v : Word} (h : famOf w = famOf v) : w = v ↔ nnnOf w = nnnOf v := by
  refine ⟨fun e => by rw [e], fun e => ?_⟩
  rw [← word_of_fam_nnn w, h, e, word_of_fam_nnn]

theorem decodeFam0_kind_unknown_iff {w : Word} (h : famOf w = 0x0) :
    (decodeFam0 w).kind = .unknown ↔ nnnOf w ≠ 0x0E0 ∧ nnnOf w ≠ 0x0EE := by
  have hcls : w = 0x00E0#16 ↔ nnnOf w = 0x0E0 := eq_iff_nnnOf_eq h
  have hret : w = 0x00EE#16 ↔ nnnOf w = 0x0EE := eq_iff_nnnOf_eq h
  rw [Ne, Ne, ← hcls, ← hret]
  unfold decodeFam0
  split
  · simp_all [Instr.kind]
  · split <;> simp_all [Instr.kind]

/-- The nibbles of family 8 without an operation are those that are not one of the nine with one. -/
theorem nibble_unused_in_fam8 : ∀ n : Nibble, n ∈ [0x8, 0x9, 0xA, 0xB, 0xC, 0xD, 0xF] ↔
    n ∉ [0x0#4, 0x1, 0x2, 0x3, 0x4, 0x5, 0x6, 0x7, 0xE] := by decide

theorem decodeFam8_kind_unknown_iff (w : Word) :
    (decodeFam8 w).kind = .unknown ↔ nOf w ∈ [0x8, 0x9, 0xA, 0xB, 0xC, 0xD, 0xF] := by
  rw [nibble_unused_in_fam8]
  unfold decodeFam8
  split <;> simp_all [Instr.kind]

theorem decodeFamE_kind_unknown_iff (w : Word) :
    (decodeFamE w).kind = .unknown ↔ nnOf w ∉ [0x9E, 0xA1] := by
  unfold decodeFamE
  split <;> simp_all [Instr.kind]

theorem decodeFamF_kind_unknown_iff (w : Word) :
    (decodeFamF w).kind = .unknown ↔ nnOf w ∉ [0x07, 0x0A, 0x15, 0x18, 0x1E, 0x29, 0x33, 0x55, 0x65] := by
  unfold decodeFamF
  split <;> simp_all [Instr.kind]

/-- The decoder's last family is 0xF. -/
theorem nibble_eq_F_of_not_mem : ∀ f : Nibble,
    f ∉ [0x0#4, 0x1, 0x2, 0x3, 0x4, 0x5, 0x6, 0x7, 0x8, 0x9, 0xA, 0xB, 0xC, 0xD, 0xE] → f = 0xF := by decide

/-- Settles O5: family by family, the six with UNKNOWN words by their own lemmas. -/
theorem unknownSpaceIsTheTableOfFamilies : Obligations.UnknownSpaceIsTheTableOfFamilies := by
  intro w
  unfold decodeWord
  split
  case h_1 hf => simp [hf, decodeFam0_kind_unknown_iff hf]
  case h_6 hf => split <;> simp_all [Instr.kind]
  case h_9 hf => simp [hf, decodeFam8_kind_unknown_iff]
  case h_10 hf => split <;> simp_all [Instr.kind]
  case h_15 hf => simp [hf, decodeFamE_kind_unknown_iff]
  case h_16 =>
    have hf : famOf w = 0xF := nibble_eq_F_of_not_mem _ (by simp_all)
    simp [hf, decodeFamF_kind_unknown_iff]
  all_goals simp_all [Instr.kind]

end Sys2Proof
end

section
/-!
What an instruction does (R125, R261, R264): `exec` raises what `fatalOf` says, else it ends in `completed`. Both are equations
on the state alone, so that what an instruction changes, reads and keeps is read off `completed` field by field.
-/
namespace Sys2Proof.Machine

/-! ### The accesses to memory as equations (R68, R69) -/

theorem memRead_of_fits (m : Memory) {a n : Nat} (h : n = 0 ∨ a + n ≤ Config.memSize) :
    memRead m a n = .ok ((List.range n).map fun k => m.read (a + k)) := by
  unfold memRead
  by_cases hn : n = 0
  · rw [if_pos hn, hn]
    rfl
  · rw [if_neg hn, if_pos ((inRange_iff (Nat.pos_of_ne_zero hn)).mpr (h.resolve_left hn))]

theorem memRead_of_outside (m : Memory) {a n : Nat} (hn : n ≠ 0) (h : Config.memSize < a + n) :
    memRead m a n = .error (memFatal a) := by
  unfold memRead
  rw [if_neg hn, if_neg (mt (inRange_iff (Nat.pos_of_ne_zero hn)).mp (Nat.not_le_of_lt h))]

theorem memWrite_of_fits (m : Memory) {a : Nat} {bs : List Byte} (hb : 0 < bs.length)
    (h : a + bs.length ≤ Config.memSize) : memWrite m a bs = .ok (m.writeAll a bs) :=
  if_pos ((inRange_iff hb).mpr h)

theorem memWrite_of_outside (m : Memory) {a : Nat} {bs : List Byte} (hb : 0 < bs.length)
    (h : Config.memSize < a + bs.length) : memWrite m a bs = .error (memFatal a) :=
  if_neg (mt (inRange_iff hb).mp (Nat.not_le_of_lt h))

/-! ### Raising or completing -/

/-- The `n` bytes from `I` on (R151, R215). -/
def State.bytesAtIndex (s : State) (n : Nat) : List Byte := (List.range n).map fun k => s.mem.read (s.indexAddr + k)

/-- The display and the collision after a draw (R151). -/
def State.drawn (s : State) (x y : RegIdx) (n : Nibble) : Canvas :=
  (Canvas.mk s.disp false).drawRows ((s.vreg x).toNat % Config.dispWidth) ((s.vreg y).toNat % Config.dispHeight)
    (s.bytesAtIndex n.toNat)

/-- What `i` raises when it is executed in `s`, if anything (R261). -/
def fatalOf (i : Instr) (s : State) : Option Fatal :=
  match i with
  | .call _ => if s.sp = Config.stackDepth then some ⟨.stackOverflow, some s.pc.toNat⟩ else none
  | .ret => if s.sp = 0 then some ⟨.stackUnderflow, none⟩ else none
  | .drw _ _ n => if n ≠ 0 ∧ Config.memSize < s.indexAddr + n.toNat then some (memFatal s.indexAddr) else none
  | .ldB _ => if Config.memSize ≤ s.indexAddr + 2 then some (memFatal s.indexAddr) else none
  | .ldMemVx x => if Config.memSize ≤ s.indexAddr + x.toNat then some (memFatal s.indexAddr) else none
  | .ldVxMem x => if Config.memSize ≤ s.indexAddr + x.toNat then some (memFatal s.indexAddr) else none
  | _ => none

/-- The state in which `i`, executed in `s`, ends if it raises nothing. Where one element is computed by an operation that
returns a whole state, only that element is taken from it. -/
def completed (i : Instr) (s : State) : State :=
  match i with
  | .cls => (s.setDisp 0).emit .displayDirtied
  | .ret => (s.setStack s.stack.dropLast).setPc (s.stack.getLastD 0)
  | .jp nnn => s.setPc (addrOperand nnn)
  | .call nnn => (s.setStack (s.stack ++ [s.pc])).setPc (addrOperand nnn)
  | .seImm x nn => s.setPc (if s.vreg x == nn then s.pc + 2 else s.pc)
  | .sneImm x nn => s.setPc (if s.vreg x != nn then s.pc + 2 else s.pc)
  | .seReg x y => s.setPc (if s.vreg x == s.vreg y then s.pc + 2 else s.pc)
  | .sneReg x y => s.setPc (if s.vreg x != s.vreg y then s.pc + 2 else s.pc)
  | .ldImm x nn => s.setV x nn
  | .addImm x nn => s.setV x (s.vreg x + nn)
  | .ldReg x y => s.setV x (s.vreg y)
  | .orReg x y => s.setV x (s.vreg x ||| s.vreg y)
  | .andReg x y => s.setV x (s.vreg x &&& s.vreg y)
  | .xorReg x y => s.setV x (s.vreg x ^^^ s.vreg y)
  | .addReg x y => s.writeResultFlag x (s.vreg x + s.vreg y) (carryFlag (s.vreg x) (s.vreg y))
  | .subReg x y => s.writeResultFlag x (s.vreg x - s.vreg y) (notBorrowFlag (s.vreg x) (s.vreg y))
  | .shr x _ => s.writeResultFlag x (s.vreg x >>> 1) (shrFlag (s.vreg x))
  | .subnReg x y => s.writeResultFlag x (s.vreg y - s.vreg x) (notBorrowFlag (s.vreg y) (s.vreg x))
  | .shl x _ => s.writeResultFlag x (s.vreg x <<< 1) (shlFlag (s.vreg x))
  | .ldI nnn => s.setI (addrOperand nnn)
  | .jpV0 nnn => s.setPc (wideOperand (s.vreg 0) + addrOperand nnn)
  | .rnd x nn => s.sampledRnd.setV x (s.rnd &&& nn)
  | .drw x y n => ((s.setDisp (s.drawn x y n).disp).setV 0xF#4 (flagOf (s.drawn x y n).collision)).emit .displayDirtied
  | .skp x => s.sampledKeys.setPc (if pressed s.keysHeld (s.vreg x) then s.pc + 2 else s.pc)
  | .sknp x => s.sampledKeys.setPc (if !pressed s.keysHeld (s.vreg x) then s.pc + 2 else s.pc)
  | .ldVxDt x => s.setV x s.dt
  | .ldVxK x => (s.beginWait x).emit .keyRequested
  | .ldDtVx x => s.setDt (s.vreg x)
  | .ldStVx x => s.setSt (s.vreg x)
  | .addI x => s.setI (s.i + wideOperand (s.vreg x))
  | .ldF x => s.setI (fontAddress (s.vreg x))
  | .ldB x => s.setMem (s.mem.writeAll s.indexAddr (bcdDigits (s.vreg x)))
  | .ldMemVx x => s.setMem (s.mem.writeAll s.indexAddr (s.regRange x))
  | .ldVxMem x => { s with v := (s.loadRegs 0 (s.bytesAtIndex (x.toNat + 1))).v }
  | .unknown _ => s

/-- The outcome that `fatalOf` and `completed` describe. -/
def raisedOrCompleted (i : Instr) (s : State) : State := (fatalOf i s).elim (completed i s) s.raise

theorem raisedOrCompleted_of_raises {i : Instr} {s : State} {f : Fatal} (h : fatalOf i s = some f) :
    raisedOrCompleted i s = s.raise f := by
  rw [raisedOrCompleted, h]; rfl

theorem raisedOrCompleted_of_completes {i : Instr} {s : State} (h : fatalOf i s = none) :
    raisedOrCompleted i s = completed i s := by
  rw [raisedOrCompleted, h]; rfl

theorem exec_call (nnn : Addr12) (s : State) : exec (.call nnn) s = .next (raisedOrCompleted (.call nnn) s) := by
  rcases push_cases s s.pc with ⟨hsp, hpush⟩ | ⟨hsp, hpush⟩
  · rw [raisedOrCompleted_of_raises (i := .call nnn) (if_pos hsp)]
    simp only [exec, execCall, hpush]; rfl
  · rw [raisedOrCompleted_of_completes (i := .call nnn) (if_neg hsp)]
    simp only [exec, execCall, hpush]; rfl

theorem exec_ret (s : State) : exec .ret s = .next (raisedOrCompleted .ret s) := by
  rcases pop_cases s with ⟨hnil, hpop⟩ | ⟨l, w, hl, hpop⟩
  · rw [raisedOrCompleted_of_raises (i := .ret) (if_pos ((sp_eq_zero_iff s).mpr hnil))]
    simp only [exec, execRet, hpop]; rfl
  · have hsp : s.sp ≠ 0 := by simp [State.sp, hl]
    have hdone : completed .ret s = (s.setStack l).setPc w := by simp [completed, hl]
    rw [raisedOrCompleted_of_completes (i := .ret) (if_neg hsp), hdone]
    simp only [exec, execRet, hpop]; rfl

theorem exec_drw (x y : RegIdx) (n : Nibble) (s : State) :
    exec (.drw x y n) s = .next (raisedOrCompleted (.drw x y n) s) := by
  have hn : n.toNat = 0 ↔ n = 0 := ⟨fun e => BitVec.eq_of_toNat_eq e, by rintro rfl; rfl⟩
  by_cases h : n ≠ 0 ∧ Config.memSize < s.indexAddr + n.toNat
  · rw [raisedOrCompleted_of_raises (i := .drw x y n) (if_pos h)]
    simp only [exec, execDrw, memRead_of_outside s.mem (mt hn.mp h.1) h.2]; rfl
  · have hfits : n.toNat = 0 ∨ s.indexAddr + n.toNat ≤ Config.memSize := by
      rw [hn]; exact or_iff_not_imp_left.mpr fun h0 => Nat.le_of_not_lt fun hlt => h ⟨h0, hlt⟩
    rw [raisedOrCompleted_of_completes (i := .drw x y n) (if_neg h)]
    simp only [exec, execDrw, memRead_of_fits s.mem hfits]; rfl

theorem exec_ldB (x : RegIdx) (s : State) : exec (.ldB x) s = .next (raisedOrCompleted (.ldB x) s) := by
  have hb : 0 < (bcdDigits (s.vreg x)).length := Nat.succ_pos 2
  by_cases h : Config.memSize ≤ s.indexAddr + 2
  · rw [raisedOrCompleted_of_raises (i := .ldB x) (if_pos h)]
    simp only [exec, execLdB, memWrite_of_outside s.mem hb (Nat.lt_succ_of_le h)]; rfl
  · rw [raisedOrCompleted_of_completes (i := .ldB x) (if_neg h)]
    simp only [exec, execLdB, memWrite_of_fits s.mem hb (Nat.lt_of_not_le h)]; rfl

theorem exec_ldMemVx (x : RegIdx) (s : State) :
    exec (.ldMemVx x) s = .next (raisedOrCompleted (.ldMemVx x) s) := by
  have hl := regRange_length s x
  have hb : 0 < (s.regRange x).length := hl ▸ Nat.succ_pos _
  by_cases h : Config.memSize ≤ s.indexAddr + x.toNat
  · rw [raisedOrCompleted_of_raises (i := .ldMemVx x) (if_pos h)]
    simp only [exec, execLdMemVx, memWrite_of_outside s.mem hb (by rw [hl]; exact Nat.lt_succ_of_le h)]; rfl
  · rw [raisedOrCompleted_of_completes (i := .ldMemVx x) (if_neg h)]
    simp only [exec, execLdMemVx, memWrite_of_fits s.mem hb (by rw [hl]; exact Nat.lt_of_not_le h)]; rfl

theorem exec_ldVxMem (x : RegIdx) (s : State) :
    exec (.ldVxMem x) s = .next (raisedOrCompleted (.ldVxMem x) s) := by
  by_cases h : Config.memSize ≤ s.indexAddr + x.toNat
  · rw [raisedOrCompleted_of_raises (i := .ldVxMem x) (if_pos h)]
    simp only [exec, execLdVxMem, memRead_of_outside s.mem (Nat.succ_ne_zero _) (Nat.lt_succ_of_le h)]; rfl
  · rw [raisedOrCompleted_of_completes (i := .ldVxMem x) (if_neg h)]
    have hread := memRead_of_fits s.mem (n := x.toNat + 1) (.inr (Nat.lt_of_not_le h))
    simp only [exec, execLdVxMem, hread]
    exact congrArg Host.Outcome.next (loadRegs_frame s 0 (s.bytesAtIndex (x.toNat + 1)))

/-- What `exec` answers, for every instruction: the six that may raise by their own lemmas, the skips as writes of `PC`, and
the rest by definition. -/
theorem exec_eq (i : Instr) (s : State) : exec i s = .next (raisedOrCompleted i s) := by
  cases i with
  | call nnn => exact exec_call nnn s
  | ret => exact exec_ret s
  | drw x y n => exact exec_drw x y n s
  | ldB x => exact exec_ldB x s
  | ldMemVx x => exact exec_ldMemVx x s
  | ldVxMem x => exact exec_ldVxMem x s
  | seImm | sneImm | seReg | sneReg => exact congrArg Host.Outcome.next (skipIf_eq s _)
  | skp | sknp => exact congrArg Host.Outcome.next (skipIf_eq s.sampledKeys _)
  | _ => rfl

theorem exec_of_raises {i : Instr} {s : State} {f : Fatal} (h : fatalOf i s = some f) :
    exec i s = .next (s.raise f) := by
  rw [exec_eq, raisedOrCompleted_of_raises h]

theorem exec_of_completes {i : Instr} {s : State} (h : fatalOf i s = none) : exec i s = .next (completed i s) := by
  rw [exec_eq, raisedOrCompleted_of_completes h]

/-- If an instruction answers `t`, it raised or it completed there. -/
theorem exec_cases {i : Instr} {s t : State} (h : exec i s = .next t) :
    (∃ f, fatalOf i s = some f ∧ t = s.raise f) ∨ (fatalOf i s = none ∧ t = completed i s) := by
  cases hf : fatalOf i s with
  | some f => rw [exec_of_raises hf] at h; cases h; exact .inl ⟨f, rfl, rfl⟩
  | none => rw [exec_of_completes hf] at h; cases h; exact .inr ⟨rfl, rfl⟩

end Sys2Proof.Machine
end

section
/-!
The whole-machine rules on one instruction (R22, R44, R261, and what R31, R42, R43 say is not read): each is a statement about
`fatalOf` and one about `completed`, by the constructors of `Instr`.
-/
namespace Sys2Proof.Machine

/-! ### What can raise (R261) -/

/-- The kinds of the six instructions that may raise. -/
def raisingKinds : List OpKind := [.call, .ret, .drw, .ldB, .ldMemVx, .ldVxMem]

theorem fatalOf_eq_none {i : Instr} (s : State) (h : i.kind ∉ raisingKinds) : fatalOf i s = none := by
  cases i with
  | call | ret | drw | ldB | ldMemVx | ldVxMem => exact absurd (by simp [raisingKinds, Instr.kind]) h
  | _ => rfl

theorem kind_mem_raisingKinds {i : Instr} {s : State} {f : Fatal} (h : fatalOf i s = some f) : i.kind ∈ raisingKinds :=
  by_contra fun hk => nomatch (fatalOf_eq_none s hk).symm.trans h

/-- A conditional fatal condition is one exactly under its condition. -/
theorem ite_some_ne_none_iff {p : Prop} [Decidable p] {f : Fatal} : (if p then some f else none) ≠ none ↔ p := by
  simp

/-- When an instruction raises: the table of R261. -/
theorem fatalOf_ne_none_iff (i : Instr) (s : State) : fatalOf i s ≠ none ↔
    (i.kind = .call ∧ s.sp = 16) ∨ (i.kind = .ret ∧ s.sp = 0) ∨
    (∃ x y n, i = .drw x y n ∧ n ≠ 0 ∧ Config.memSize < s.i.toNat + n.toNat) ∨
    (i.kind = .ldB ∧ Config.memSize ≤ s.i.toNat + 2) ∨
    (∃ x, (i = .ldMemVx x ∨ i = .ldVxMem x) ∧ Config.memSize ≤ s.i.toNat + x.toNat) := by
  cases i with
  | call | ret | drw | ldB | ldMemVx | ldVxMem =>
    exact ite_some_ne_none_iff.trans (by simp [Instr.kind, Config.stackDepth, State.indexAddr])
  | _ => exact iff_of_false (fun h => h rfl) (by simp [Instr.kind])

/-- What an instruction raises has the cause of its kind (R261). -/
theorem fatalOf_cause {i : Instr} {s : State} {f : Fatal} (h : fatalOf i s = some f) :
    f.cause = if i.kind = .call then .stackOverflow else if i.kind = .ret then .stackUnderflow else .memOutOfRange := by
  cases i with
  | call | ret | drw | ldB | ldMemVx | ldVxMem =>
    obtain ⟨-, hf⟩ := Option.ite_none_right_eq_some.mp h
    cases hf
    rfl
  | _ => cases h

/-! ### What changes (R44) -/

/-- An instruction that completes enters the wait, or leaves the run state. -/
theorem completed_runState (i : Instr) (s : State) :
    (completed i s).runState = if i.kind = .ldVxK then .awaitingKey else s.runState := by
  cases i <;> rfl

/-- An instruction that completes latches no halt cause. -/
@[simp] theorem completed_haltCause (i : Instr) (s : State) : (completed i s).haltCause = s.haltCause := by
  cases i <;> rfl

/-- The effects an instruction returns when it completes (R122). -/
def emits (i : Instr) : List Effect :=
  match i with
  | .cls | .drw _ _ _ => [.displayDirtied]
  | .ldVxK _ => [.keyRequested]
  | _ => []

theorem completed_effects (i : Instr) (s : State) : (completed i s).effects = s.effects ++ emits i := by
  cases i with
  | cls | drw | ldVxK => rfl
  | _ => exact (List.append_nil _).symm

/-- The access matrix of R44: what an instruction of each kind leaves as it was. -/
structure AccessFrame (i : Instr) (s t : State) : Prop where
  i_eq : i.kind ∉ [.ldI, .addI, .ldF] → t.i = s.i
  pc_eq : i.kind ∉ [.ret, .jp, .call, .seImm, .sneImm, .seReg, .sneReg, .jpV0, .skp, .sknp] → t.pc = s.pc
  stack_eq : i.kind ∉ [.ret, .call] → t.stack = s.stack
  dt_eq : i.kind ≠ .ldDtVx → t.dt = s.dt
  st_eq : i.kind ≠ .ldStVx → t.st = s.st
  disp_eq : i.kind ∉ [.cls, .drw] → t.disp = s.disp ∧ t.displayDirty = s.displayDirty
  mem_eq : i.kind ∉ [.ldB, .ldMemVx] → t.mem = s.mem
  wait_eq : i.kind ≠ .ldVxK → t.waitReg = s.waitReg ∧ t.keyLatch = s.keyLatch
  inputs_eq : i.kind ∉ [.rnd, .skp, .sknp] → t.inputs = s.inputs
  runState_eq : i.kind ∉ [.ldVxK, .call, .ret, .drw, .ldB, .ldMemVx, .ldVxMem] → t.runState = s.runState
  haltCause_eq : i.kind ∉ [.call, .ret, .drw, .ldB, .ldMemVx, .ldVxMem] → t.haltCause = s.haltCause
  effects_eq : i.kind ∉ [.cls, .drw, .ldVxK, .call, .ret, .ldB, .ldMemVx, .ldVxMem] → t.effects = s.effects

/-- Each field of `completed` but the listed ones is that of `s`. -/
theorem accessFrame_completed (i : Instr) (s : State) : AccessFrame i s (completed i s) where
  i_eq h := by
    cases i with
    | ldI | addI | ldF => simp [Instr.kind] at h
    | _ => rfl
  pc_eq h := by
    cases i with
    | ret | jp | call | seImm | sneImm | seReg | sneReg | jpV0 | skp | sknp => simp [Instr.kind] at h
    | _ => rfl
  stack_eq h := by
    cases i with
    | ret | call => simp [Instr.kind] at h
    | _ => rfl
  dt_eq h := by
    cases i with
    | ldDtVx => simp [Instr.kind] at h
    | _ => rfl
  st_eq h := by
    cases i with
    | ldStVx => simp [Instr.kind] at h
    | _ => rfl
  disp_eq h := by
    cases i with
    | cls | drw => simp [Instr.kind] at h
    | _ => exact ⟨rfl, rfl⟩
  mem_eq h := by
    cases i with
    | ldB | ldMemVx => simp [Instr.kind] at h
    | _ => rfl
  wait_eq h := by
    cases i with
    | ldVxK => simp [Instr.kind] at h
    | _ => exact ⟨rfl, rfl⟩
  inputs_eq h := by
    cases i with
    | rnd | skp | sknp => simp [Instr.kind] at h
    | _ => rfl
  runState_eq h := by
    have hk : i.kind ≠ .ldVxK := fun e => h (by simp [e])
    rw [completed_runState, if_neg hk]
  haltCause_eq _ := completed_haltCause i s
  effects_eq h := by
    cases i with
    | cls | drw | ldVxK => simp [Instr.kind] at h
    | _ => rfl

/-- The fatal entry changes the run state, the halt cause and the effects, which is what the raising kinds may. -/
theorem accessFrame_raise {i : Instr} {s : State} (f : Fatal) (h : i.kind ∈ raisingKinds) :
    AccessFrame i s (s.raise f) where
  i_eq _ := rfl
  pc_eq _ := rfl
  stack_eq _ := rfl
  dt_eq _ := rfl
  st_eq _ := rfl
  disp_eq _ := ⟨rfl, rfl⟩
  mem_eq _ := rfl
  wait_eq _ := ⟨rfl, rfl⟩
  inputs_eq _ := rfl
  runState_eq hk := absurd (List.mem_cons_of_mem _ h) hk
  haltCause_eq hk := absurd h hk
  effects_eq hk := by simp_all [raisingKinds]

theorem accessFrame_exec {i : Instr} {s t : State} (h : exec i s = .next t) : AccessFrame i s t := by
  rcases exec_cases h with ⟨f, hf, rfl⟩ | ⟨-, rfl⟩
  · exact accessFrame_raise f (kind_mem_raisingKinds hf)
  · exact accessFrame_completed i s

/-- Settles O53: the access frame, with reads for the whole memory. -/
theorem elementsChangeOnlyByTheirInstructions : Obligations.ElementsChangeOnlyByTheirInstructions := by
  intro i s t h
  have hframe := accessFrame_exec h
  exact ⟨hframe.i_eq, hframe.pc_eq, hframe.stack_eq, hframe.dt_eq, hframe.st_eq, hframe.disp_eq,
    fun hk a => congrArg (·.read a) (hframe.mem_eq hk), hframe.wait_eq, hframe.inputs_eq, hframe.runState_eq,
    hframe.haltCause_eq, hframe.effects_eq⟩

/-- Settles O55: an instruction that completes from Running is Running or waits, so Halted is exactly the fatal entry. -/
theorem onlySixInstructionsRaise : Obligations.OnlySixInstructionsRaise := by
  intro i s t hrun h
  rw [← fatalOf_ne_none_iff]
  rcases exec_cases h with ⟨f, hf, rfl⟩ | ⟨hf, rfl⟩
  · exact ⟨by simp [hf], fun _ => ⟨f, rfl, fatalOf_cause hf⟩⟩
  · have hnot : (completed i s).runState ≠ .halted := by
      rw [completed_runState, hrun]
      split <;> decide
    exact ⟨by simp [hf, hnot], fun hh => absurd hh hnot⟩

/-! ### Which registers change (R22, R44) -/

/-- A register the instruction does not write reads as before. -/
theorem completed_vreg {i : Instr} {r : RegIdx} (s : State) (h : writesReg i r = false) :
    (completed i s).vreg r = s.vreg r := by
  cases i with
  | ldVxMem x =>
    have hx := x.isLt
    have hr : ¬ r.toNat ≤ x.toNat := of_decide_eq_false h
    have hload := vreg_loadRegs s 0 (s.bytesAtIndex (x.toNat + 1)) (by simp [State.bytesAtIndex]; omega) r
    rw [if_neg (by simp [State.bytesAtIndex]; omega)] at hload
    exact hload
  | _ => simp_all [completed, writesReg]

theorem flagOf_eq_zero_or_one (c : Bool) : flagOf c = 0 ∨ flagOf c = 1 := by
  cases c
  · exact .inl rfl
  · exact .inr rfl

/-- The six flag-writing instructions leave a flag in the flag register. -/
theorem completed_flag {i : Instr} (s : State) (h : i.kind ∈ [.addReg, .subReg, .shr, .subnReg, .shl, .drw]) :
    ∃ c, (completed i s).vreg 0xF#4 = flagOf c := by
  cases i with
  | addReg | subReg | shr | subnReg | shl | drw =>
    simp only [completed, vreg_writeResultFlag, emit_vreg, vreg_setV, if_true]
    exact ⟨_, rfl⟩
  | _ => simp [Instr.kind] at h

/-- Settles O54: the fatal entry writes no register, and changes the run state of a machine that is not halted. -/
theorem registersChangeOnlyAsTheSpecLists : Obligations.RegistersChangeOnlyAsTheSpecLists := by
  intro i s t h
  rcases exec_cases h with ⟨f, -, rfl⟩ | ⟨-, rfl⟩
  · exact ⟨fun r _ => raise_vreg s f r, fun _ hsame hnot => absurd hsame.symm hnot⟩
  · refine ⟨fun r => completed_vreg s, fun hk _ _ => ?_⟩
    obtain ⟨c, hc⟩ := completed_flag s hk
    exact hc ▸ flagOf_eq_zero_or_one c

/-! ### What is not read -/

/-- A load of registers reads nothing but the register file. -/
theorem loadRegs_v_congr {s t : State} (h : s.v = t.v) (k : RegIdx) (bs : List Byte) :
    (s.loadRegs k bs).v = (t.loadRegs k bs).v := by
  induction bs generalizing s t k with
  | nil => exact h
  | cons b bs ih => exact ih (by simp only [State.setV, h]) (k + 1)

/-- `s` with other inputs. -/
def State.withInputs (s : State) (inputs : Inputs) : State := { s with inputs := inputs }
/-- `s` with another value in `ST`. -/
def State.withSt (s : State) (b : Byte) : State := { s with st := b }
/-- `s` with another key latch. -/
def State.withLatch (s : State) (k : Option Nibble) : State := { s with keyLatch := k }

theorem fatalOf_withInputs (i : Instr) (s : State) (inputs : Inputs) : fatalOf i (s.withInputs inputs) = fatalOf i s := by
  cases i <;> rfl

theorem fatalOf_withSt (i : Instr) (s : State) (b : Byte) : fatalOf i (s.withSt b) = fatalOf i s := by
  cases i <;> rfl

theorem fatalOf_withLatch (i : Instr) (s : State) (k : Option Nibble) : fatalOf i (s.withLatch k) = fatalOf i s := by
  cases i <;> rfl

theorem completed_withInputs {i : Instr} (s : State) (inputs : Inputs) (h : i.kind ∉ [.rnd, .skp, .sknp]) :
    completed i (s.withInputs inputs) = (completed i s).withInputs inputs := by
  cases i with
  | rnd | skp | sknp => simp [Instr.kind] at h
  | ldVxMem x =>
    exact congrArg (fun v => { s with v := v, inputs := inputs })
      (loadRegs_v_congr (s := s.withInputs inputs) (t := s) rfl 0 (s.bytesAtIndex (x.toNat + 1)))
  | _ => rfl

/-- Settles O56: other inputs change neither what an instruction raises nor where it completes. -/
theorem inputsReachOnlyTheirInstructions : Obligations.InputsReachOnlyTheirInstructions := by
  intro i s t inputs hk h
  have hsame := fatalOf_withInputs i s inputs
  rcases exec_cases h with ⟨f, hf, rfl⟩ | ⟨hf, rfl⟩
  · exact exec_of_raises (hsame.trans hf)
  · exact (exec_of_completes (hsame.trans hf)).trans (congrArg _ (completed_withInputs s inputs hk))

theorem completed_withSt (i : Instr) (s : State) (b : Byte) :
    completed i (s.withSt b) = (completed i s).withSt (completed i (s.withSt b)).st := by
  cases i with
  | ldVxMem x =>
    exact congrArg (fun v => { s with v := v, st := b })
      (loadRegs_v_congr (s := s.withSt b) (t := s) rfl 0 (s.bytesAtIndex (x.toNat + 1)))
  | _ => rfl

/-- Settles O58: whatever `ST` holds, an instruction raises the same or completes alike but for `ST`, which by R44 it keeps
unless it is `LD ST, Vx`. -/
theorem soundTimerIsReadByNoInstruction : Obligations.SoundTimerIsReadByNoInstruction := by
  intro i s t b h
  have hst {u : State} (hu : exec i (s.withSt b) = .next u) : i.kind ≠ .ldStVx → u.st = b :=
    (accessFrame_exec hu).st_eq
  rcases exec_cases h with ⟨f, hf, rfl⟩ | ⟨hf, rfl⟩
  · have hu : exec i (s.withSt b) = .next ((s.withSt b).raise f) := exec_of_raises ((fatalOf_withSt i s b).trans hf)
    exact ⟨_, hu, rfl, hst hu⟩
  · have hu : exec i (s.withSt b) = .next (completed i (s.withSt b)) :=
      exec_of_completes ((fatalOf_withSt i s b).trans hf)
    exact ⟨_, hu, completed_withSt i s b, hst hu⟩

theorem completed_withLatch (i : Instr) (s : State) (k : Option Nibble) :
    completed i (s.withLatch k) = (completed i s).withLatch (completed i (s.withLatch k)).keyLatch := by
  cases i with
  | ldVxMem x =>
    exact congrArg (fun v => { s with v := v, keyLatch := k })
      (loadRegs_v_congr (s := s.withLatch k) (t := s) rfl 0 (s.bytesAtIndex (x.toNat + 1)))
  | _ => rfl

/-- With another key latch an instruction ends in the same state but for the latch (R36). -/
theorem exec_withLatch {i : Instr} {s t u : State} {k : Option Nibble} (ht : exec i s = .next t)
    (hu : exec i (s.withLatch k) = .next u) : u = t.withLatch u.keyLatch := by
  have hsame := fatalOf_withLatch i s k
  rcases exec_cases ht with ⟨f, hf, rfl⟩ | ⟨hf, rfl⟩
  · rw [exec_of_raises (hsame.trans hf)] at hu
    cases hu
    rfl
  · rw [exec_of_completes (hsame.trans hf)] at hu
    cases hu
    exact completed_withLatch i s k

end Sys2Proof.Machine
end

section
/-!
What a step does (R123 to R128, R264): `StepTo` lists the six ways a step can go, with the state in which it ends. The
statements on steps, and on the host operations that contain one, are read off this list.
-/
namespace Sys2Proof.Machine

/-! ### The fetch -/

/-- The word at the address `a`, first byte high (R64). -/
def Memory.wordAt (m : Memory) (a : Nat) : Word := wordOfBytes (m.read a) (m.read (a + 1))

/-- The instruction at `PC` (R96, R124). -/
def State.nextInstr (s : State) : Instr := decodeWord (s.mem.wordAt s.pc.toNat)

/-- The state after a fetch: the step's effect set is empty and `PC` is advanced (R122, R124). -/
def State.fetched (s : State) : State := { s with pc := s.pc + 2, effects := [] }

/-- In Running with both bytes in memory a step executes the instruction at `PC`. -/
theorem step_running {s : State} (hrun : s.runState = .running) (hpc : s.pc.toNat + 1 < Config.memSize) :
    step s = exec s.nextInstr s.fetched := by
  rcases fetch_cases s.clearEffects with ⟨hout, -⟩ | ⟨-, hfetch⟩
  · exact absurd hpc (Nat.not_lt_of_le hout)
  · exact step_fetched hrun hfetch

/-- In Running with a byte of the word outside memory a step enters Halted, from the state before the fetch. -/
theorem step_running_outside {s : State} (hrun : s.runState = .running) (hpc : Config.memSize ≤ s.pc.toNat + 1) :
    step s = .next (s.clearEffects.raise (memFatal s.pc.toNat)) := by
  rcases fetch_cases s.clearEffects with ⟨-, hfetch⟩ | ⟨hin, -⟩
  · exact step_fetch_raised hrun hfetch
  · exact absurd hin (Nat.not_lt_of_le hpc)

/-- Settles O7: the fetched step, and `decodeWord_encodeWord` for the bytes of a given instruction. -/
theorem stepRunsTheDecodedInstruction : Obligations.StepRunsTheDecodedInstruction := by
  intro s hrun hpc
  have hstep := step_running hrun hpc
  refine ⟨hstep, fun i hwf hbytes => ?_⟩
  have hi : s.nextInstr = i := by
    obtain ⟨hhi, hlo⟩ : s.mem.read s.pc.toNat = hiByte (encodeWord i) ∧
        s.mem.read (s.pc.toNat + 1) = loByte (encodeWord i) := by simpa [encode] using hbytes
    rw [State.nextInstr, Memory.wordAt, hhi, hlo, wordOfBytes_hi_lo, decodeWord_encodeWord i hwf]
  rw [hstep, hi]
  rfl

/-- Settles O8: the fetch raises before it advances `PC`. -/
theorem fetchOutsideMemoryHalts : Obligations.FetchOutsideMemoryHalts := fun _ hrun hpc => step_running_outside hrun hpc

/-- Settles O49: the execute phase of UNKNOWN changes nothing, so a step over an UNKNOWN word is its fetch. -/
theorem unknownWordsOnlyAdvanceThePc : Obligations.UnknownWordsOnlyAdvanceThePc := by
  refine fun w s => ⟨rfl, fun hrun hpc hkind => ?_⟩
  rw [step_running hrun hpc]
  change s.nextInstr.kind = .unknown at hkind
  cases hi : s.nextInstr with
  | unknown v => rfl
  | _ => rw [hi] at hkind; cases hkind

/-! ### The wait -/

/-- The delivery of the key `k` (R126). -/
def State.delivered (s : State) (k : Nibble) : State :=
  { s.setV s.waitReg (k.setWidth 8) with keyLatch := none, runState := .running }

theorem awaitKey_of_none {s : State} (h : s.keyLatch = none) : s.awaitKey = s := by
  unfold State.awaitKey; rw [h]

theorem awaitKey_of_some {s : State} {k : Nibble} (h : s.keyLatch = some k) : s.awaitKey = s.delivered k := by
  unfold State.awaitKey; rw [h]; rfl

theorem step_awaiting_none {s : State} (h : s.runState = .awaitingKey) (hk : s.keyLatch = none) :
    step s = .next s.clearEffects := by
  rw [step_awaitingKey h, awaitKey_of_none (s := s.clearEffects) hk]

theorem step_awaiting_some {s : State} {k : Nibble} (h : s.runState = .awaitingKey) (hk : s.keyLatch = some k) :
    step s = .next (s.clearEffects.delivered k) := by
  rw [step_awaitingKey h, awaitKey_of_some (s := s.clearEffects) hk]

/-- The destination holds the key code after the delivery. -/
theorem delivered_vreg_waitReg (s : State) (k : Nibble) : ((s.delivered k).vreg s.waitReg).toNat = k.toNat := by
  have hreg : (s.delivered k).vreg s.waitReg = k.setWidth 8 := vreg_setV_same s s.waitReg (k.setWidth 8)
  rw [hreg, BitVec.toNat_setWidth_of_le (by decide)]

/-- The other registers read as before the delivery. -/
theorem delivered_vreg_of_ne (s : State) (k : Nibble) {r : RegIdx} (h : r ≠ s.waitReg) :
    (s.delivered k).vreg r = s.vreg r :=
  vreg_setV_of_ne s (k.setWidth 8) h

/-- Settles O9: the step in the wait without and with a report. -/
theorem awaitingStepDeliversTheReportedKey : Obligations.AwaitingStepDeliversTheReportedKey := fun s h =>
  ⟨step_awaiting_none h, fun k hk => ⟨_, step_awaiting_some h hk, delivered_vreg_waitReg s.clearEffects k,
    fun _ => delivered_vreg_of_ne s.clearEffects k, rfl⟩⟩

/-! ### The ways a step can go -/

/-- The ways a step from `s` can go, with the state in which it ends. -/
inductive StepTo (s : State) : State → Prop
  /-- R127. -/
  | stays (hrun : s.runState = .halted) : StepTo s s.clearEffects
  /-- R126, with no report. -/
  | waits (hrun : s.runState = .awaitingKey) (hkey : s.keyLatch = none) : StepTo s s.clearEffects
  /-- R126, with a report. -/
  | delivers (hrun : s.runState = .awaitingKey) (k : Nibble) (hkey : s.keyLatch = some k) :
    StepTo s (s.clearEffects.delivered k)
  /-- R124, the fetch raises. -/
  | fetchRaises (hrun : s.runState = .running) (hpc : Config.memSize ≤ s.pc.toNat + 1) :
    StepTo s (s.clearEffects.raise (memFatal s.pc.toNat))
  /-- R125, the execute phase raises. -/
  | execRaises (hrun : s.runState = .running) (hpc : s.pc.toNat + 1 < Config.memSize) (f : Fatal)
    (hf : fatalOf s.nextInstr s.fetched = some f) : StepTo s (s.fetched.raise f)
  /-- R125, the instruction completes. -/
  | completes (hrun : s.runState = .running) (hpc : s.pc.toNat + 1 < Config.memSize)
    (hf : fatalOf s.nextInstr s.fetched = none) : StepTo s (completed s.nextInstr s.fetched)

/-- Every step goes one of these ways. -/
theorem exists_stepTo (s : State) : ∃ t, step s = .next t ∧ StepTo s t := by
  cases hrun : s.runState with
  | halted => exact ⟨_, step_halted hrun, .stays hrun⟩
  | awaitingKey =>
    cases hkey : s.keyLatch with
    | none => exact ⟨_, step_awaiting_none hrun hkey, .waits hrun hkey⟩
    | some k => exact ⟨_, step_awaiting_some hrun hkey, .delivers hrun k hkey⟩
  | running =>
    rcases Nat.lt_or_ge (s.pc.toNat + 1) Config.memSize with hpc | hpc
    · cases hf : fatalOf s.nextInstr s.fetched with
      | some f => exact ⟨_, (step_running hrun hpc).trans (exec_of_raises hf), .execRaises hrun hpc f hf⟩
      | none => exact ⟨_, (step_running hrun hpc).trans (exec_of_completes hf), .completes hrun hpc hf⟩
    · exact ⟨_, step_running_outside hrun hpc, .fetchRaises hrun hpc⟩

theorem stepTo_of_step {s t : State} (h : step s = .next t) : StepTo s t := by
  obtain ⟨u, hu, hto⟩ := exists_stepTo s
  cases hu.symm.trans h
  exact hto

/-- A step with arguments is a step of the state that presents them, and drops them at the end (R39). -/
theorem exists_stepTo_of_stepWith (keys : BitVec 16) (r : Byte) (s : State) :
    ∃ u, stepWith keys r s = .next u.dropInputs ∧ StepTo (s.present keys r) u := by
  obtain ⟨u, hu, hto⟩ := exists_stepTo (s.present keys r)
  exact ⟨u, stepWith_of_step hu, hto⟩

/-- Settles O14: `exists_stepTo`, `exec_eq`, and the operations one by one. -/
theorem everyStepAnswersANextState : Obligations.EveryStepAnswersANextState := by
  refine ⟨fun s => ?_, fun i s => ⟨_, exec_eq i s⟩, fun o s hfits => ?_⟩
  · obtain ⟨t, ht, -⟩ := exists_stepTo s
    exact ⟨t, ht⟩
  · cases o with
    | reset program =>
      obtain ⟨t, ht, -⟩ := applyOp_reset_of_fits s (hfits program rfl)
      exact ⟨t, ht⟩
    | step keys r =>
      obtain ⟨u, hu, -⟩ := exists_stepTo_of_stepWith keys r s
      exact ⟨_, hu⟩
    | tick => exact ⟨_, rfl⟩
    | reportKey k => exact ⟨_, rfl⟩
    | clearDirty => exact ⟨_, rfl⟩

/-! ### Effects and run states of a step (R34, R122, R128, R266) -/

/-- An instruction returns at most one effect when it completes, and no fatal one. -/
theorem emits_length_le_one (i : Instr) : (emits i).length ≤ 1 := by
  cases i <;> simp [emits]

theorem fatal_not_mem_emits (i : Instr) (f : Fatal) : .fatal f ∉ emits i := by
  cases i <;> simp [emits]

/-- A step that completes an instruction returns the instruction's effects. -/
theorem completed_fetched_effects (i : Instr) (s : State) : (completed i s.fetched).effects = emits i :=
  completed_effects i s.fetched

/-- A step that completes an instruction ends in the wait for `LD Vx, K`, and in Running for any other. -/
theorem completed_fetched_runState {s : State} (i : Instr) (hrun : s.runState = .running) :
    (completed i s.fetched).runState = if i.kind = .ldVxK then .awaitingKey else .running := by
  rw [completed_runState, show s.fetched.runState = .running from hrun]

theorem completed_fetched_not_halted {s : State} (i : Instr) (hrun : s.runState = .running) :
    (completed i s.fetched).runState ≠ .halted := by
  rw [completed_fetched_runState i hrun]
  split <;> decide

/-- Settles O12: a fatal effect is the one effect of the two ways that raise, and no other way enters Halted. -/
theorem stepReturnsAtMostOneEffect : Obligations.StepReturnsAtMostOneEffect := by
  intro s t h
  cases stepTo_of_step h with
  | stays hrun => simp [hrun]
  | waits hrun => simp [hrun]
  | delivers hrun k => simp [hrun, State.delivered]
  | fetchRaises hrun => simp [hrun]
  | execRaises hrun hpc f => simp [hrun, State.fetched]
  | completes hrun =>
    have hnot := completed_fetched_not_halted s.nextInstr hrun
    rw [completed_fetched_effects]
    simp [hrun, hnot, emits_length_le_one, fatal_not_mem_emits]

/-- Settles O13: the six ways one by one. -/
theorem runStateTransitionsOfAStep : Obligations.RunStateTransitionsOfAStep := by
  intro s t h
  change (s.runState = .running → (t.runState = .awaitingKey ↔
    s.pc.toNat + 1 < Config.memSize ∧ s.nextInstr.kind = .ldVxK)) ∧ _
  cases stepTo_of_step h with
  | stays hrun => simp [hrun]
  | waits hrun hkey => simp [hrun, hkey]
  | delivers hrun k hkey => simp [hrun, hkey, State.delivered]
  | fetchRaises hrun hpc => simp [hrun, Nat.not_lt_of_le hpc]
  | execRaises hrun hpc f hf =>
    have hkind : s.nextInstr.kind ≠ .ldVxK := fun e => by
      have hmem := kind_mem_raisingKinds hf
      simp [e, raisingKinds] at hmem
    simp [hrun, hkind]
  | completes hrun hpc => simp [hrun, hpc, completed_fetched_runState _ hrun]

/-- Settles O57: both steps fetch the same word, or both fail to, and no instruction reads the latch. -/
theorem keyLatchIsNotReadWhileRunning : Obligations.KeyLatchIsNotReadWhileRunning := by
  intro s t u k hrun ht hu
  change step (s.withLatch k) = .next u at hu
  rcases Nat.lt_or_ge (s.pc.toNat + 1) Config.memSize with hpc | hpc
  · rw [step_running hrun hpc] at ht
    rw [step_running (s := s.withLatch k) hrun hpc] at hu
    exact exec_withLatch ht hu
  · rw [step_running_outside hrun hpc] at ht
    rw [step_running_outside (s := s.withLatch k) hrun hpc] at hu
    cases ht
    cases hu
    rfl

end Sys2Proof.Machine
end

section
/-!
The invariant of R46 (`State.Inv`): reset meets it, and every way a step can go and every other host operation keeps it.
-/
namespace Sys2Proof.Machine

/-! ### The state that `reset` constructs -/

/-- The state that the reset of a program that fits constructs (R45, R300; the count of samples: log 30). -/
def resetState (program : List Byte) (samples : Nat) : State :=
  { State.reset with mem := programMemory program, inputs := { State.reset.inputs with samples := samples } }

/-- A reset that answers a state had a program that fits, and the state is `resetState`. -/
theorem reset_eq_of_next {program : List Byte} {s t : State} (h : applyOp (.reset program) s = .next t) :
    program.length ≤ maxProgramLength ∧ t = resetState program s.inputs.samples := by
  rcases Nat.lt_or_ge maxProgramLength program.length with hlong | hfits
  · rw [applyOp_reset_of_oversize s hlong] at h
    cases h
  · have hnext : applyOp (.reset program) s = .next (resetState program s.inputs.samples) := if_pos hfits
    rw [hnext] at h
    cases h
    exact ⟨hfits, rfl⟩

/-- A program that fits ends inside `MEM` (R301). -/
theorem progBase_add_length_le {program : List Byte} (h : program.length ≤ maxProgramLength) :
    Config.progBase + program.length ≤ Config.memSize := by
  rw [← progBase_add_maxProgramLength]
  exact Nat.add_le_add_left h _

/-- Settles O15: the stack is empty, no cause is latched, and memory lists no cell. -/
theorem resetStateMeetsTheInvariant : Obligations.ResetStateMeetsTheInvariant :=
  ⟨Nat.zero_le _, by decide, reset_mem_wf⟩

theorem inv_resetState {program : List Byte} (samples : Nat) (h : program.length ≤ maxProgramLength) :
    (resetState program samples).Inv :=
  ⟨resetStateMeetsTheInvariant.depth, resetStateMeetsTheInvariant.cause,
    wf_writeAll reset_mem_wf (progBase_add_length_le h)⟩

/-! ### The ways a step can go keep the invariant -/

/-- The invariant is about the stack, the run state, the halt cause and memory only. -/
theorem State.Inv.congr {s t : State} (h : s.Inv) (hstack : t.stack = s.stack) (hrun : t.runState = s.runState)
    (hcause : t.haltCause = s.haltCause) (hmem : t.mem = s.mem) : t.Inv :=
  ⟨by simpa only [State.sp, hstack] using h.depth, by rw [hcause, hrun]; exact h.cause, by rw [hmem]; exact h.memory⟩

theorem inv_clearEffects {s : State} (h : s.Inv) : s.clearEffects.Inv := h.congr rfl rfl rfl rfl

theorem inv_fetched {s : State} (h : s.Inv) : s.fetched.Inv := h.congr rfl rfl rfl rfl

/-- The fatal entry latches a cause with Halted (R264). -/
theorem inv_raise {s : State} (h : s.Inv) (f : Fatal) : (s.raise f).Inv := ⟨h.depth, by simp, h.memory⟩

/-- A delivery starts in a state that is not halted, so no cause is latched (R126). -/
theorem inv_delivered {s : State} (h : s.Inv) (hrun : s.runState = .awaitingKey) (k : Nibble) : (s.delivered k).Inv := by
  have hcause : s.haltCause = none := h.cause.mpr (by simp [hrun])
  exact ⟨h.depth, by simp [State.delivered, hcause], h.memory⟩

/-- An instruction that completes leaves the stack within its capacity: a call that finds it full raises (R162). -/
theorem completed_depth {i : Instr} {s : State} (h : s.sp ≤ Config.stackDepth) (hf : fatalOf i s = none) :
    (completed i s).sp ≤ Config.stackDepth := by
  cases i with
  | call nnn =>
    have hne : s.sp ≠ Config.stackDepth := fun e => nomatch (if_pos e).symm.trans hf
    have hsp : (completed (.call nnn) s).sp = s.sp + 1 := List.length_append
    rw [hsp]
    exact Nat.lt_of_le_of_ne h hne
  | ret =>
    have hsp : (completed .ret s).sp = s.sp - 1 := List.length_dropLast
    rw [hsp]
    exact (Nat.sub_le _ _).trans h
  | _ => exact h

/-- An instruction that completes keeps the canonical form: a write that leaves memory raises (R69). -/
theorem completed_wf {i : Instr} {s : State} (h : s.mem.wf) (hf : fatalOf i s = none) : (completed i s).mem.wf := by
  cases i with
  | ldB x =>
    have hin : ¬ Config.memSize ≤ s.indexAddr + 2 := fun e => nomatch (if_pos e).symm.trans hf
    exact wf_writeAll h (Nat.lt_of_not_le hin)
  | ldMemVx x =>
    have hin : ¬ Config.memSize ≤ s.indexAddr + x.toNat := fun e => nomatch (if_pos e).symm.trans hf
    exact wf_writeAll h (by rw [regRange_length]; exact Nat.lt_of_not_le hin)
  | _ => exact h

/-- An instruction that completes from Running ends in Running or in the wait, with no cause latched. -/
theorem inv_completed {s : State} {i : Instr} (h : s.Inv) (hrun : s.runState = .running) (hf : fatalOf i s = none) :
    (completed i s).Inv := by
  have hcause : s.haltCause = none := h.cause.mpr (by simp [hrun])
  refine ⟨completed_depth h.depth hf, ?_, completed_wf h.memory hf⟩
  rw [completed_haltCause, completed_runState, hrun, hcause]
  split <;> decide

theorem inv_of_stepTo {s t : State} (h : s.Inv) (hto : StepTo s t) : t.Inv := by
  cases hto with
  | stays => exact inv_clearEffects h
  | waits => exact inv_clearEffects h
  | delivers hrun k => exact inv_delivered (inv_clearEffects h) hrun k
  | fetchRaises => exact inv_raise (inv_clearEffects h) _
  | execRaises _ _ f => exact inv_raise (inv_fetched h) f
  | completes hrun _ hf => exact inv_completed (inv_fetched h) hrun hf

/-- Settles O16: every way a step can go keeps the invariant. -/
theorem stepKeepsTheInvariant : Obligations.StepKeepsTheInvariant := fun _ _ hinv hstep =>
  inv_of_stepTo hinv (stepTo_of_step hstep)

/-! ### The host operations keep the invariant -/

theorem inv_of_applyOp_reset {program : List Byte} {s t : State} (h : applyOp (.reset program) s = .next t) : t.Inv := by
  obtain ⟨hfits, rfl⟩ := reset_eq_of_next h
  exact inv_resetState _ hfits

/-- A step with arguments that answers `t` is a step of the state that presents them. -/
theorem stepTo_of_applyOp_step {keys : BitVec 16} {r : Byte} {s t : State} (h : applyOp (.step keys r) s = .next t) :
    ∃ u, t = u.dropInputs ∧ StepTo (s.present keys r) u := by
  obtain ⟨u, hu, hto⟩ := exists_stepTo_of_stepWith keys r s
  cases hu.symm.trans h
  exact ⟨u, rfl, hto⟩

/-- Settles O17: `reset` from any state, a step by O16's lemma, and three operations that leave what the invariant is
about. -/
theorem hostOperationKeepsTheInvariant : Obligations.HostOperationKeepsTheInvariant := by
  refine ⟨fun o s t hinv h => ?_, fun _ _ _ => inv_of_applyOp_reset⟩
  cases o with
  | reset program => exact inv_of_applyOp_reset h
  | step keys r =>
    obtain ⟨u, rfl, hto⟩ := stepTo_of_applyOp_step h
    have hpresent : (s.present keys r).Inv := hinv.congr rfl rfl rfl rfl
    exact (inv_of_stepTo hpresent hto).congr rfl rfl rfl rfl
  | tick => cases h; exact hinv.congr rfl rfl rfl rfl
  | reportKey k => cases h; exact hinv.congr rfl rfl rfl rfl
  | clearDirty => cases h; exact hinv.congr rfl rfl rfl rfl

end Sys2Proof.Machine
end

section
/-!
Sequences of host operations in Halted and in AwaitingKey (R46 (c) and (f), R127, R271), and sequences of ticks (R270).
-/
namespace Sys2Proof.Machine

theorem runOps_cons {o : HostOp} {s t : State} (ops : List HostOp) (h : applyOp o s = .next t) :
    runOps (o :: ops) s = runOps ops t := by
  simp only [runOps, h]

/-! ### Halted -/

/-- What operations `ops`, none of them a reset, leave of a halted state: all but the timers, the latch and the dirty flag,
and these as well unless `ops` has their own operation. -/
structure HaltedFrame (ops : List HostOp) (s t : State) : Prop where
  run : t.runState = .halted
  cause : t.haltCause = s.haltCause
  v : t.v = s.v
  i : t.i = s.i
  pc : t.pc = s.pc
  stack : t.stack = s.stack
  mem : t.mem = s.mem
  disp : t.disp = s.disp
  waitReg : t.waitReg = s.waitReg
  timers : .tick ∉ ops → t.dt = s.dt ∧ t.st = s.st
  latch : (∀ k, .reportKey k ∉ ops) → t.keyLatch = s.keyLatch
  dirty : .clearDirty ∉ ops → t.displayDirty = s.displayDirty

theorem HaltedFrame.nil {s : State} (h : s.runState = .halted) : HaltedFrame [] s s :=
  ⟨h, rfl, rfl, rfl, rfl, rfl, rfl, rfl, rfl, fun _ => ⟨rfl, rfl⟩, fun _ => rfl, fun _ => rfl⟩

/-- The frames of one operation and of the operations after it, put together. -/
theorem HaltedFrame.cons {o : HostOp} {ops : List HostOp} {s u t : State} (hu : HaltedFrame [o] s u)
    (ht : HaltedFrame ops u t) : HaltedFrame (o :: ops) s t where
  run := ht.run
  cause := ht.cause.trans hu.cause
  v := ht.v.trans hu.v
  i := ht.i.trans hu.i
  pc := ht.pc.trans hu.pc
  stack := ht.stack.trans hu.stack
  mem := ht.mem.trans hu.mem
  disp := ht.disp.trans hu.disp
  waitReg := ht.waitReg.trans hu.waitReg
  timers h := by
    simp only [List.mem_cons, not_or] at h
    obtain ⟨hdt, hst⟩ := ht.timers h.2
    obtain ⟨hdt', hst'⟩ := hu.timers (by simpa using h.1)
    exact ⟨hdt.trans hdt', hst.trans hst'⟩
  latch h := by
    simp only [List.mem_cons, not_or] at h
    exact (ht.latch fun k => (h k).2).trans (hu.latch fun k => by simpa using (h k).1)
  dirty h := by
    simp only [List.mem_cons, not_or] at h
    exact (ht.dirty h.2).trans (hu.dirty (by simpa using h.1))

/-- One operation but a reset, in Halted. -/
theorem exists_haltedFrame_applyOp {s : State} (h : s.runState = .halted) (o : HostOp)
    (ho : ∀ program, o ≠ .reset program) : ∃ t, applyOp o s = .next t ∧ HaltedFrame [o] s t := by
  cases o with
  | reset program => exact absurd rfl (ho program)
  | step keys r => exact ⟨_, stepWith_halted h keys r, by constructor <;> simp [h]⟩
  | tick => exact ⟨s.tick, rfl, by constructor <;> simp [h]⟩
  | reportKey k => exact ⟨s.reportKey k, rfl, by constructor <;> simp [h]⟩
  | clearDirty => exact ⟨s.clearDirty, rfl, by constructor <;> simp [h]⟩

/-- Any number of operations without a reset, in Halted. -/
theorem exists_haltedFrame_runOps (ops : List HostOp) (s : State) (h : s.runState = .halted)
    (hops : ∀ program, HostOp.reset program ∉ ops) : ∃ t, runOps ops s = .next t ∧ HaltedFrame ops s t := by
  induction ops generalizing s with
  | nil => exact ⟨s, rfl, .nil h⟩
  | cons o ops ih =>
    simp only [List.mem_cons, not_or] at hops
    obtain ⟨u, hu, hframe⟩ := exists_haltedFrame_applyOp h o fun program e => (hops program).1 e.symm
    obtain ⟨t, ht, hframe'⟩ := ih u hframe.run fun program => (hops program).2
    exact ⟨t, (runOps_cons ops hu).trans ht, hframe.cons hframe'⟩

/-- Settles O11, by induction on the operations. -/
theorem haltedCoreKeepsItsStateUntilReset : Obligations.HaltedCoreKeepsItsStateUntilReset := by
  intro ops s h hops
  obtain ⟨t, ht, hframe⟩ := exists_haltedFrame_runOps ops s h hops
  exact ⟨t, ht, hframe.run, hframe.cause, hframe.v, hframe.i, hframe.pc, hframe.stack, hframe.mem, hframe.disp,
    hframe.waitReg, hframe.timers, hframe.latch, hframe.dirty⟩

/-! ### AwaitingKey -/

/-- Settles O18: of the operations only a step with a report leaves the wait. -/
theorem waitKeepsPcUntilAKeyIsReported : Obligations.WaitKeepsPcUntilAKeyIsReported := by
  intro o s t h ho hop
  cases o with
  | reset program => exact absurd rfl (ho program)
  | step keys r =>
    obtain ⟨u, rfl, hto⟩ := stepTo_of_applyOp_step hop
    cases hto with
    | waits => exact ⟨rfl, rfl, rfl, rfl, rfl, rfl, .inl ⟨h, rfl, rfl⟩⟩
    | delivers _ k hkey =>
      have hreport : s.keyLatch ≠ none := fun e => nomatch e.symm.trans hkey
      exact ⟨rfl, rfl, rfl, rfl, rfl, rfl, .inr ⟨⟨keys, r, rfl⟩, rfl, hreport⟩⟩
    | stays hrun | fetchRaises hrun | execRaises hrun | completes hrun => exact nomatch h.symm.trans hrun
  | tick | reportKey | clearDirty => cases hop; exact ⟨rfl, rfl, rfl, rfl, rfl, rfl, .inl ⟨h, rfl, rfl⟩⟩

/-- `t` waits for a key to `x`, with no report yet and registers and `PC` as in `s`. -/
structure WaitsFor (x : RegIdx) (s t : State) : Prop where
  run : t.runState = .awaitingKey
  dest : t.waitReg = x
  latch : t.keyLatch = none
  v : t.v = s.v
  pc : t.pc = s.pc

/-- A step with arguments in the wait, with no report. -/
theorem stepWith_awaiting_none {s : State} (h : s.runState = .awaitingKey) (hk : s.keyLatch = none) (keys : BitVec 16)
    (r : Byte) : stepWith keys r s = .next (s.present keys r).clearEffects.dropInputs :=
  stepWith_of_step (step_awaiting_none (s := s.present keys r) h hk)

/-- A step with arguments in the wait, with a report. -/
theorem stepWith_awaiting_some {s : State} {k : Nibble} (h : s.runState = .awaitingKey) (hk : s.keyLatch = some k)
    (keys : BitVec 16) (r : Byte) :
    stepWith keys r s = .next ((s.present keys r).clearEffects.delivered k).dropInputs :=
  stepWith_of_step (step_awaiting_some (s := s.present keys r) h hk)

/-- Steps and ticks leave the wait as it is. -/
theorem exists_waitsFor_runOps {x : RegIdx} {s : State} (ops : List HostOp)
    (hops : ∀ o ∈ ops, o = .tick ∨ ∃ keys r, o = .step keys r) (t : State) (ht : WaitsFor x s t) :
    ∃ u, runOps ops t = .next u ∧ WaitsFor x s u := by
  induction ops generalizing t with
  | nil => exact ⟨t, rfl, ht⟩
  | cons o ops ih =>
    simp only [List.forall_mem_cons] at hops
    obtain ⟨ho, hops⟩ := hops
    rcases ho with rfl | ⟨keys, r, rfl⟩
    · exact ih hops t.tick ⟨ht.run, ht.dest, ht.latch, ht.v, ht.pc⟩
    · rw [runOps_cons (o := .step keys r) ops (stepWith_awaiting_none ht.run ht.latch keys r)]
      exact ih hops _ ⟨ht.run, ht.dest, ht.latch, ht.v, ht.pc⟩

/-- Settles O44: `LD Vx, K` raises nothing, and `completed` names the elements it writes. -/
theorem keyReadEntersTheWait : Obligations.KeyReadEntersTheWait := fun x s => exec_eq (.ldVxK x) s

/-- Settles O45: steps and ticks keep the wait (by induction), and the report is delivered by the step after it. -/
theorem keyReadDeliversTheReportedKey : Obligations.KeyReadDeliversTheReportedKey := by
  intro x k keys r ops s t h hops
  have hbegin : WaitsFor x s t := by
    cases (keyReadEntersTheWait x s).symm.trans h
    exact ⟨rfl, rfl, rfl, rfl, rfl⟩
  obtain ⟨u, hu, hwait⟩ := exists_waitsFor_runOps ops hops t hbegin
  obtain ⟨hrun, rfl, hlatch, hv, hpc⟩ := hwait
  have hstep := stepWith_awaiting_some (s := u.reportKey k) hrun rfl keys r
  refine ⟨u, _, hu, hrun, hv, hpc, (runOps_cons _ rfl).trans (runOps_cons [] hstep), rfl, hpc, ?_, fun q hq => ?_⟩
  · exact delivered_vreg_waitReg ((u.reportKey k).present keys r).clearEffects k
  · exact (delivered_vreg_of_ne ((u.reportKey k).present keys r).clearEffects k hq).trans (vreg_congr u s hv q)

/-- Settles O48: each of the two operations is one field update. -/
theorem reportAndAcknowledge : Obligations.ReportAndAcknowledge := fun _ _ => ⟨rfl, rfl⟩

/-! ### Ticks -/

/-- Settles O47, by induction on the number of ticks. -/
theorem ticksCountDownToZero : Obligations.TicksCountDownToZero := by
  intro k
  induction k with
  | zero => exact fun s => ⟨s, rfl, rfl, rfl, rfl⟩
  | succ k ih =>
    intro s
    obtain ⟨t, ht, hdt, hst, hframe⟩ := ih s.tick
    refine ⟨t, (runOps_cons _ (applyOp_tick s)).trans ht, ?_, ?_, hframe⟩
    · rw [hdt, tick_dt_toNat, Nat.sub_sub, Nat.add_comm]
    · rw [hst, tick_st_toNat, Nat.sub_sub, Nat.add_comm]

end Sys2Proof.Machine
end

section
/-!
Reset (R45, R300, R303), the level outputs (R40), and the word the host places for the next step (log 31).
-/
namespace Sys2Proof.Machine

/-! ### Reset -/

/-- What an address reads as after `reset`: the program from `PROG_BASE` on, and what it read as unlisted elsewhere. -/
theorem read_programMemory_eq {program : List Byte} (h : program.length ≤ maxProgramLength) (a : Nat) :
    (programMemory program).read a =
      if Config.progBase ≤ a ∧ a < Config.progBase + program.length then program.getD (a - Config.progBase) 0
      else Memory.unlisted a :=
  read_writeAll reset_mem_wf (progBase_add_length_le h) a

/-- Below `PROG_BASE` memory reads as it is unlisted: the program is not there. -/
theorem read_programMemory_below {program : List Byte} (h : program.length ≤ maxProgramLength) {a : Nat}
    (ha : a < Config.progBase) : (programMemory program).read a = Memory.unlisted a := by
  rw [read_programMemory_eq h, if_neg fun hin => Nat.not_le_of_lt ha hin.1]

/-- Past the program memory reads as it is unlisted. -/
theorem read_programMemory_past {program : List Byte} (h : program.length ≤ maxProgramLength) {a : Nat}
    (ha : Config.progBase + program.length ≤ a) : (programMemory program).read a = Memory.unlisted a := by
  rw [read_programMemory_eq h, if_neg fun hin => Nat.not_le_of_lt hin.2 ha]

/-- Unlisted, the glyphs stand at `FONT_BASE` (R66). -/
theorem unlisted_font (k : Nat) : Memory.unlisted (Config.fontBase + k) = Config.font.getD k 0 := by
  rw [Memory.unlisted, if_pos (Nat.le_add_right _ _), Nat.add_sub_cancel_left]

/-- Unlisted, the bytes past the font are 0 (R45, D15; log 19). -/
theorem unlisted_past_font {a : Nat} (h : Config.fontBase + 80 ≤ a) : Memory.unlisted a = 0 := by
  obtain ⟨k, rfl⟩ := Nat.exists_eq_add_of_le ((Nat.le_add_right _ _).trans h)
  rw [unlisted_font]
  exact List.getD_eq_default _ _ (Nat.le_of_add_le_add_left h)

/-- Settles O50: the reset state runs from `PROG_BASE`, where both bytes of a word are in memory. -/
theorem resetEntersAtTheEntryPoint : Obligations.ResetEntersAtTheEntryPoint := by
  intro program s t h
  obtain ⟨-, rfl⟩ := reset_eq_of_next h
  have hpc : State.reset.pc.toNat + 1 < Config.memSize := by decide
  exact ⟨rfl, rfl, rfl, rfl, step_running rfl hpc⟩

/-- Settles O52: the elements by definition, memory by address range. -/
theorem resetValuesDecidedByTheSpec : Obligations.ResetValuesDecidedByTheSpec := by
  intro program s t h
  obtain ⟨hfits, rfl⟩ := reset_eq_of_next h
  refine ⟨fun r => ?_, rfl, rfl, rfl, fun x y => BitVec.getLsbD_zero, rfl, rfl, rfl, fun d k hd hk => ?_,
    fun a ha hfont => ?_, fun k hk => read_programMemory hfits hk, fun a ha => ?_⟩
  · exact Vector.getElem_replicate r.isLt
  · rw [Nat.add_assoc, ← unlisted_font]
    exact read_programMemory_below hfits (by simp only [Config.fontBase, Config.progBase]; omega)
  · rw [← unlisted_past_font hfont]
    exact read_programMemory_below hfits ha
  · have hpast : Config.fontBase + 80 ≤ a := by simp only [Config.fontBase]; omega
    rw [← unlisted_past_font hpast]
    exact read_programMemory_past hfits ha

/-! ### The outputs -/

/-- The code 0 of `halt_cause` is for None only (D9; log 12). -/
theorem haltCode_eq_zero_iff (s : State) : s.haltCode = 0 ↔ s.haltCause = none := by
  unfold State.haltCode
  cases s.haltCause with
  | none => simp
  | some c => cases c <;> simp [FatalCause.code]

theorem haltCode_of_some {s : State} {c : FatalCause} (h : s.haltCause = some c) : s.haltCode = c.code := by
  unfold State.haltCode; rw [h]

/-- Settles O59: each output by its definition, the halt code by its cause, which the invariant ties to Halted. -/
theorem outputsFollowTheState : Obligations.OutputsFollowTheState := fun s =>
  ⟨rfl, rfl, beq_iff_eq, outputs_soundActive_iff s, beq_iff_eq, (haltCode_eq_zero_iff s).mpr, haltCode_of_some,
    haltCode_of_some, haltCode_of_some, fun h => (haltCode_eq_zero_iff s).trans h.cause⟩

/-! ### The word the host places -/

/-- A word written inside memory is the word there (R64). -/
theorem wordAt_writeAll_word {m : Memory} (h : m.wf) {a : Nat} (ha : a + 1 < Config.memSize) (w : Word) :
    (m.writeAll a [hiByte w, loByte w]).wordAt a = w := by
  have hend : a + [hiByte w, loByte w].length ≤ Config.memSize := ha
  rw [Memory.wordAt, read_writeAll h hend, read_writeAll h hend]
  simp [wordOfBytes_hi_lo]

/-- `readyToFetch` leaves `PC` where two bytes can be read. -/
theorem readyToFetch_pc_lt (s : State) : s.readyToFetch.pc.toNat + 1 < Config.memSize := by
  by_cases h : inRange s.pc.toNat 2 = true
  · have hpc : s.readyToFetch.pc = s.pc := if_pos h
    rw [hpc]
    exact (inRange_iff (by decide)).mp h
  · have hpc : s.readyToFetch.pc = BitVec.ofNat 16 Config.progBase := if_neg h
    rw [hpc]
    decide

/-- Settles O60: the placed word is what the fetch reads. -/
theorem placedWordIsTheNextInstruction : Obligations.PlacedWordIsTheNextInstruction := by
  intro s w hwf
  have hplaced : (s.withFetchWord 16 w.toNat).nextInstr = decodeWord w := by
    have hw : BitVec.ofNat 16 (w.toNat % 2 ^ 16) = w :=
      BitVec.eq_of_toNat_eq (by rw [BitVec.toNat_ofNat, Nat.mod_mod, Nat.mod_eq_of_lt w.isLt])
    have hword := wordAt_writeAll_word hwf (readyToFetch_pc_lt s) w
    rw [← hw] at hword
    rw [State.nextInstr]
    exact congrArg decodeWord (hword.trans hw)
  rw [step_running (s := s.withFetchWord 16 w.toNat) rfl (readyToFetch_pc_lt s), hplaced]
  rfl

end Sys2Proof.Machine
end

section
/-!
Memory as a whole (R73, R74) and the instructions that access it at `I` (R213 to R216): each completes with its one write, or
takes the fatal entry, by `exec_of_completes` and `exec_of_raises`.
-/
namespace Sys2Proof.Machine

/-! ### Canonical memories that read alike are equal -/

/-- Below the first cell of a canonical memory every address reads as unlisted. -/
theorem read_below_head {c : Host.Cell} {m : Memory} (h : Memory.wf (c :: m)) {a : Nat} (ha : a < c.1) :
    Memory.read (c :: m) a = Memory.unlisted a := by
  refine read_unlisted fun d hd => ?_
  rcases List.mem_cons.mp hd with rfl | hd
  · exact Nat.ne_of_gt ha
  · exact Nat.ne_of_gt (ha.trans (wf_head_lt h hd))

/-- The address of the first cell of a canonical memory reads as no unlisted address does. -/
theorem read_head_ne_unlisted {c : Host.Cell} {m : Memory} (h : Memory.wf (c :: m)) :
    Memory.read (c :: m) c.1 ≠ Memory.unlisted c.1 := by
  obtain ⟨-, hcells⟩ := h
  rw [Memory.read, if_pos rfl]
  exact (hcells c List.mem_cons_self).2

/-- The first address of one of two memories that read alike is not below the first address of the other. -/
theorem head_not_lt_head {c d : Host.Cell} {m n : Memory} (hm : Memory.wf (c :: m)) (hn : Memory.wf (d :: n))
    (h : ∀ a, Memory.read (c :: m) a = Memory.read (d :: n) a) : ¬ c.1 < d.1 := fun hlt =>
  read_head_ne_unlisted hm ((h c.1).trans (read_below_head hn hlt))

/-- A canonical memory is determined by its reads, cell by cell. -/
theorem memory_ext {m n : Memory} (hm : m.wf) (hn : n.wf) (h : ∀ a, m.read a = n.read a) : m = n := by
  induction m generalizing n with
  | nil =>
    cases n with
    | nil => rfl
    | cons d n => exact absurd (h d.1).symm (read_head_ne_unlisted hn)
  | cons c m ih =>
    cases n with
    | nil => exact absurd (h c.1) (read_head_ne_unlisted hm)
    | cons d n =>
      have haddr : c.1 = d.1 :=
        Nat.le_antisymm (Nat.le_of_not_lt (head_not_lt_head hn hm fun a => (h a).symm))
          (Nat.le_of_not_lt (head_not_lt_head hm hn h))
      have hbyte : c.2 = d.2 := by simpa [Memory.read, haddr] using h c.1
      have hcd : c = d := Prod.ext haddr hbyte
      subst hcd
      have htail : ∀ a, Memory.read m a = Memory.read n a := fun a => by
        by_cases ha : c.1 = a
        · rw [read_unlisted fun e he => ha ▸ Nat.ne_of_gt (wf_head_lt hm he),
            read_unlisted fun e he => ha ▸ Nat.ne_of_gt (wf_head_lt hn he)]
        · simpa [Memory.read, ha] using h a
      rw [ih (wf_tail hm) (wf_tail hn) htail]

/-- Settles O38: `read_write`, `wf_write`, and the extensionality of canonical memories. -/
theorem memoryReadsTheMostRecentWrite : Obligations.MemoryReadsTheMostRecentWrite :=
  ⟨fun _ a k b h => read_write h a b k, fun _ _ _ h ha => wf_write h ha, fun _ _ => memory_ext⟩

/-! ### The three instructions inside memory -/

theorem fatalOf_ldB_of_fits {x : RegIdx} {s : State} (h : s.indexAddr + 2 < Config.memSize) :
    fatalOf (.ldB x) s = none := if_neg (Nat.not_le_of_lt h)

theorem fatalOf_ldMemVx_of_fits {x : RegIdx} {s : State} (h : s.indexAddr + x.toNat < Config.memSize) :
    fatalOf (.ldMemVx x) s = none := if_neg (Nat.not_le_of_lt h)

theorem fatalOf_ldVxMem_of_fits {x : RegIdx} {s : State} (h : s.indexAddr + x.toNat < Config.memSize) :
    fatalOf (.ldVxMem x) s = none := if_neg (Nat.not_le_of_lt h)

/-- A read of one of the addresses that were written. -/
theorem read_writeAll_at {m : Memory} {a k : Nat} {bs : List Byte} (h : m.wf) (hend : a + bs.length ≤ Config.memSize)
    (hk : k < bs.length) : (m.writeAll a bs).read (a + k) = bs.getD k 0 := by
  rw [read_writeAll h hend, if_pos ⟨Nat.le_add_right a k, Nat.add_lt_add_left hk a⟩, Nat.add_sub_cancel_left]

/-- Settles O32: the three digits are one `Memory.writeAll`, and a digit is a byte. -/
theorem bcdDigitsAreStored : Obligations.BcdDigitsAreStored := by
  intro x s hwf hin
  have hend : s.indexAddr + (bcdDigits (s.vreg x)).length ≤ Config.memSize := hin
  have hdigit {k : Nat} (hk : k < 3) := congrArg BitVec.toNat (read_writeAll_at (k := k) hwf hend hk)
  have hbyte {n : Nat} (hn : n < 256) : (BitVec.ofNat 8 n).toNat = n := Nat.mod_eq_of_lt hn
  have hlt := (s.vreg x).isLt
  exact ⟨_, exec_of_completes (fatalOf_ldB_of_fits hin),
    (hdigit (k := 0) (by decide)).trans (hbyte (by omega)),
    (hdigit (k := 1) (by decide)).trans (hbyte (by omega)),
    (hdigit (k := 2) (by decide)).trans (hbyte (by omega)),
    fun a ha => (read_writeAll hwf hend a).trans (if_neg ha), rfl⟩

/-- Settles O33: the register range is one `Memory.writeAll`. -/
theorem registerDumpStoresTheRange : Obligations.RegisterDumpStoresTheRange := by
  intro x s hwf hin
  have hlen := regRange_length s x
  have hend : s.indexAddr + (s.regRange x).length ≤ Config.memSize := by rw [hlen]; exact hin
  refine ⟨_, exec_of_completes (fatalOf_ldMemVx_of_fits hin), fun r hr => ?_, fun a ha => ?_, rfl⟩
  · have hk : r.toNat < (s.regRange x).length := by rw [hlen]; exact Nat.lt_succ_of_le hr
    exact (read_writeAll_at hwf hend hk).trans (regRange_getD s x r hr)
  · exact (read_writeAll hwf hend a).trans (if_neg (by rw [hlen]; exact ha))

theorem bytesAtIndex_length (s : State) (n : Nat) : (s.bytesAtIndex n).length = n := by
  simp [State.bytesAtIndex]

theorem bytesAtIndex_getD (s : State) {k n : Nat} (h : k < n) :
    (s.bytesAtIndex n).getD k 0 = s.mem.read (s.indexAddr + k) := by
  simp [State.bytesAtIndex, h]

/-- A register after a load of `V[0] … V[X]` from `I` on (R215). -/
theorem completed_ldVxMem_vreg (x q : RegIdx) (s : State) : (completed (.ldVxMem x) s).vreg q =
    if q.toNat ≤ x.toNat then s.mem.read (s.indexAddr + q.toNat) else s.vreg q := by
  have hx := x.isLt
  have hload := vreg_loadRegs s 0 (s.bytesAtIndex (x.toNat + 1)) (by simp [bytesAtIndex_length]; omega) q
  rw [bytesAtIndex_length] at hload
  refine hload.trans ?_
  by_cases hq : q.toNat ≤ x.toNat
  · have hlt : q.toNat < x.toNat + 1 := Nat.lt_succ_of_le hq
    rw [if_pos hq, if_pos (by simpa using hlt)]
    exact bytesAtIndex_getD s hlt
  · rw [if_neg hq, if_neg (by simpa using hq)]

/-- Settles O34: one lemma says what every register reads as after the load. -/
theorem registerLoadReadsTheRange : Obligations.RegisterLoadReadsTheRange := fun x s hin =>
  ⟨_, exec_of_completes (fatalOf_ldVxMem_of_fits hin),
    fun r hr => (completed_ldVxMem_vreg x r s).trans (if_pos hr),
    fun r hr => (completed_ldVxMem_vreg x r s).trans (if_neg (Nat.not_le_of_lt hr)), rfl⟩

/-! ### The accesses outside memory -/

/-- Settles O35: each of the four raises from the state it is executed in. -/
theorem accessOutsideMemoryHalts : Obligations.AccessOutsideMemoryHalts := by
  rintro x y n s t rfl
  exact ⟨fun h => exec_of_raises (i := .ldB x) (if_pos h),
    fun h => ⟨exec_of_raises (i := .ldMemVx x) (if_pos h), exec_of_raises (i := .ldVxMem x) (if_pos h)⟩,
    fun hn h => exec_of_raises (i := .drw x y n) (if_pos ⟨hn, h⟩)⟩

/-! ### A dump, and what follows it -/

/-- A dump that did not halt was inside memory, and its answer is what `registerDumpStoresTheRange` says of it. -/
theorem dump_of_not_halted {x : RegIdx} {s t : State} (hwf : s.mem.wf) (h : exec (.ldMemVx x) s = .next t)
    (hrun : t.runState ≠ .halted) : s.indexAddr + x.toNat < Config.memSize ∧ t.i = s.i ∧
      ∀ r : RegIdx, r.toNat ≤ x.toNat → t.mem.read (s.indexAddr + r.toNat) = s.vreg r := by
  rcases execLdMemVx_cases x s t h with ⟨-, rfl⟩ | ⟨hin, -⟩
  · exact absurd rfl hrun
  · obtain ⟨u, hu, hreads, -, -⟩ := registerDumpStoresTheRange x s hwf hin
    cases hu.symm.trans h
    exact ⟨hin, (accessFrame_exec h).i_eq (by simp [Instr.kind]), hreads⟩

/-- Settles O36: the load reads what the dump stored. -/
theorem dumpThenLoadRestoresTheRegisters : Obligations.DumpThenLoadRestoresTheRegisters := by
  intro x s t u hwf h hrun hmem hi
  obtain ⟨hin, hti, hdump⟩ := dump_of_not_halted hwf h hrun
  have hidx : u.indexAddr = s.indexAddr := congrArg BitVec.toNat (hi.trans hti)
  obtain ⟨r, hr, hload, -, -⟩ := registerLoadReadsTheRange x u (hidx ▸ hin)
  exact ⟨r, hr, fun q hq => by rw [hload q hq, hmem, hidx, hdump q hq]⟩

/-- Settles O37: the two bytes at `I` are `V[0]` and `V[1]`, and `PC` is `I`. -/
theorem storeIsSeenByTheNextFetch : Obligations.StoreIsSeenByTheNextFetch := by
  intro x s t hwf hx _ h hrun
  obtain ⟨hin, hti, hdump⟩ := dump_of_not_halted hwf h (by simp [hrun])
  have hidx : t.i.toNat = s.indexAddr := congrArg BitVec.toNat hti
  have hword : t.mem.wordAt t.i.toNat = wordOfBytes (s.vreg 0) (s.vreg 1) := by
    rw [Memory.wordAt, hidx]
    exact congrArg₂ wordOfBytes (hdump 0 (Nat.zero_le _)) (hdump 1 hx)
  have hpc : t.i.toNat + 1 < Config.memSize := by omega
  rw [step_running (s := { t with pc := t.i }) hrun hpc]
  exact congrArg (fun w => exec (decodeWord w) { t with pc := t.i + 2, effects := [] }) hword

end Sys2Proof.Machine
end

section
/-!
Register, control and index instructions on their own (R160, R162, R182 to R191, R212): the value written, the other
registers, and the frame of the write.
-/
namespace Sys2Proof.Machine

/-! ### One register -/

/-- Settles O20: one register write each, its value bit by bit. -/
theorem registerAssignOrAndXor : Obligations.RegisterAssignOrAndXor := fun x y s =>
  ⟨⟨_, exec_eq (.ldReg x y) s, vreg_setV_same s x _, fun _ => vreg_setV_of_ne s _, rfl⟩,
    ⟨_, exec_eq (.orReg x y) s, fun k => (congrArg (·.getLsbD k) (vreg_setV_same s x _)).trans BitVec.getLsbD_or,
      fun _ => vreg_setV_of_ne s _, rfl⟩,
    ⟨_, exec_eq (.andReg x y) s, fun k => (congrArg (·.getLsbD k) (vreg_setV_same s x _)).trans BitVec.getLsbD_and,
      fun _ => vreg_setV_of_ne s _, rfl⟩,
    ⟨_, exec_eq (.xorReg x y) s, fun k => (congrArg (·.getLsbD k) (vreg_setV_same s x _)).trans BitVec.getLsbD_xor,
      fun _ => vreg_setV_of_ne s _, rfl⟩⟩

/-- The byte the host presented is the value of `rnd` (R43). -/
theorem rnd_of_presented {s : State} {r : Byte} (h : s.inputs.rnd = some r) : s.rnd = r := by
  rw [State.rnd, h]; rfl

/-- Settles O23: whatever byte is drawn, the mask bounds it. -/
theorem randomByteIsMasked : Obligations.RandomByteIsMasked := by
  intro x nn s
  have hval : (completed (.rnd x nn) s).vreg x = s.rnd &&& nn := vreg_setV_same s.sampledRnd x _
  refine ⟨_, exec_eq (.rnd x nn) s, fun r hr => ?_, ?_, fun _ => vreg_setV_of_ne s.sampledRnd _, rfl⟩
  · exact hval.trans (by rw [rnd_of_presented hr])
  · refine (congrArg (· &&& ~~~nn) hval).trans ?_
    rw [BitVec.and_assoc, BitVec.and_not_self]
    exact BitVec.and_zero

/-! ### A result and a flag (R193) -/

/-- What a flag-writing instruction leaves: the result, unless the flag replaces it, the flag, and everything else. -/
theorem writesResultFlag {i : Instr} {s : State} {x : RegIdx} {r f : Byte}
    (h : exec i s = .next (s.writeResultFlag x r f)) : ∃ t, exec i s = .next t ∧ (x ≠ 0xF#4 → t.vreg x = r) ∧
      t.vreg 0xF#4 = f ∧ (∀ q, q ≠ x → q ≠ 0xF#4 → t.vreg q = s.vreg q) ∧ t = { s with v := t.v } := by
  refine ⟨_, h, fun hx => ?_, ?_, fun q hqx hqf => ?_, writeResultFlag_frame s x r f⟩
  · rw [vreg_writeResultFlag, if_neg hx, if_pos rfl]
  · rw [vreg_writeResultFlag, if_pos rfl]
  · rw [vreg_writeResultFlag, if_neg hqf, if_neg hqx]

theorem carryFlag_eq (a b : Byte) : carryFlag a b = if a.toNat + b.toNat > 255 then 1 else 0 := by
  simp [carryFlag, flagOf]

theorem notBorrowFlag_eq (a b : Byte) : notBorrowFlag a b = if b.toNat > a.toNat then 0 else 1 := by
  by_cases h : b.toNat > a.toNat <;> simp [notBorrowFlag, flagOf, h]

/-- A difference modulo 256, written without truncation. -/
theorem sub_toNat_eq (a b : Byte) : (a - b).toNat = (256 + a.toNat - b.toNat) % 256 := by
  have hb := b.isLt
  rw [BitVec.toNat_sub]
  omega

/-- Settles O21: the three by `writesResultFlag`, with the sum, the differences and the flags as numbers. -/
theorem addAndSubtractSetTheFlag : Obligations.AddAndSubtractSetTheFlag := by
  intro x y s
  refine ⟨?_, ?_, ?_⟩
  · obtain ⟨t, ht, hres, hflag, hkeep⟩ := writesResultFlag (exec_eq (.addReg x y) s)
    exact ⟨t, ht, fun hx => by rw [hres hx, BitVec.toNat_add], by rw [hflag, carryFlag_eq], hkeep⟩
  · obtain ⟨t, ht, hres, hflag, hkeep⟩ := writesResultFlag (exec_eq (.subReg x y) s)
    exact ⟨t, ht, fun hx => by rw [hres hx, sub_toNat_eq], by rw [hflag, notBorrowFlag_eq], hkeep⟩
  · obtain ⟨t, ht, hres, hflag, hkeep⟩ := writesResultFlag (exec_eq (.subnReg x y) s)
    exact ⟨t, ht, fun hx => by rw [hres hx, sub_toNat_eq], by rw [hflag, notBorrowFlag_eq], hkeep⟩

theorem flagOf_toNat (c : Bool) : (flagOf c).toNat = c.toNat := by
  cases c <;> rfl

/-- The bit a right shift moves out is the remainder (R188). -/
theorem shrFlag_toNat (a : Byte) : (shrFlag a).toNat = a.toNat % 2 := by
  rw [shrFlag, flagOf_toNat, BitVec.getLsbD, Nat.toNat_testBit]
  simp

/-- The bit a left shift moves out is the top bit (R190). -/
theorem shlFlag_toNat (a : Byte) : (shlFlag a).toNat = a.toNat / 128 := by
  have ha := a.isLt
  rw [shlFlag, flagOf_toNat, BitVec.getLsbD, Nat.toNat_testBit]
  omega

/-- Settles O22: both by `writesResultFlag`, with the shifts and the bits shifted out as numbers. -/
theorem shiftsSetTheFlagToTheBitShiftedOut : Obligations.ShiftsSetTheFlagToTheBitShiftedOut := by
  intro x y s
  refine ⟨?_, ?_⟩
  · obtain ⟨t, ht, hres, hflag, hkeep⟩ := writesResultFlag (exec_eq (.shr x y) s)
    refine ⟨t, ht, fun hx => ?_, by rw [hflag, shrFlag_toNat], hkeep⟩
    rw [hres hx, BitVec.toNat_ushiftRight, Nat.shiftRight_eq_div_pow, Nat.pow_one]
  · obtain ⟨t, ht, hres, hflag, hkeep⟩ := writesResultFlag (exec_eq (.shl x y) s)
    refine ⟨t, ht, fun hx => ?_, by rw [hflag, shlFlag_toNat], hkeep⟩
    rw [hres hx, BitVec.toNat_shiftLeft, Nat.shiftLeft_eq, Nat.pow_one, Nat.mul_comm]

/-! ### Calls and returns -/

theorem fatalOf_call_of_not_full {s : State} (nnn : Addr12) (h : s.sp ≠ 16) : fatalOf (.call nnn) s = none := if_neg h

/-- A return from a stack in use completes with the last entry in `PC` (R160). -/
theorem exec_ret_of_stack {s : State} {l : List Word} {w : Word} (h : s.stack = l ++ [w]) :
    exec .ret s = .next { s with pc := w, stack := l } := by
  have hsp : s.sp ≠ 0 := by simp [State.sp, h]
  have hdone : completed .ret s = { s with pc := w, stack := l } := by
    simp [completed, h, State.setPc, State.setStack]
  rw [exec_of_completes (i := .ret) (if_neg hsp), hdone]

/-- Settles O27: neither raises at the depth given. -/
theorem callPushesAndReturnPops : Obligations.CallPushesAndReturnPops := fun _ =>
  ⟨fun nnn h => ⟨_, exec_of_completes (fatalOf_call_of_not_full nnn h), addrOperand_toNat nnn, rfl, rfl⟩,
    fun _ _ => exec_ret_of_stack⟩

/-- Settles O28: both raise from the state after the fetch. -/
theorem stackFaultsHalt : Obligations.StackFaultsHalt := fun _ =>
  ⟨fun nnn h => exec_of_raises (i := .call nnn) (if_pos h), fun h => exec_of_raises (i := .ret) (if_pos h)⟩

/-- Settles O29: a call that did not halt pushed `PC`, which the return takes off the same stack. -/
theorem callThenReturnRestoresThePc : Obligations.CallThenReturnRestoresThePc := by
  intro nnn s t u h hrun hstack
  rcases execCall_cases nnn s t h with ⟨-, rfl⟩ | ⟨-, rfl⟩
  · exact absurd rfl hrun
  · exact ⟨_, exec_ret_of_stack hstack, rfl, rfl⟩

/-! ### The glyph of a digit -/

theorem exec_ldF (x : RegIdx) (s : State) : exec (.ldF x) s = .next (s.setI (fontAddress (s.vreg x))) :=
  exec_eq (.ldF x) s

/-- Settles O31: the formula at `formula` for every value, and at `refuse` for a digit. -/
theorem fontAddressSelectsTheGlyph : Obligations.FontAddressSelectsTheGlyph := by
  intro x s
  refine ⟨⟨_, exec_ldF x s, rfl, fontAddress_toNat (s.vreg x)⟩, fun hdigit oor => ?_, fun hbig => ⟨rfl, ?_⟩⟩
  · rcases loadFontAddress_cases s oor x with ⟨-, heq⟩ | ⟨hbig, -⟩
    · exact heq.trans (exec_ldF x s).symm
    · exact absurd hdigit (Nat.not_le_of_lt hbig)
  · rcases loadFontAddress_cases s .refuse x with ⟨hdigit | hset, -⟩ | ⟨-, -, heq⟩
    · exact absurd hdigit (Nat.not_le_of_lt hbig)
    · cases hset
    · exact heq

/-! ### The skips on a key -/

/-- The vector the host presented is the value of `keys_held` (R42). -/
theorem keysHeld_of_presented {s : State} {keys : BitVec 16} (h : s.inputs.keysHeld = some keys) : s.keysHeld = keys := by
  rw [State.keysHeld, h]; rfl

/-- A register value names a held key: none above 15 (R230, D12; log 15). -/
theorem pressed_iff (keys : BitVec 16) (b : Byte) :
    pressed keys b = true ↔ b.toNat ≤ 15 ∧ keys.getLsbD b.toNat = true := by
  unfold pressed keyOperand
  by_cases h : b.toNat ≤ 15
  · have hkey : (b.setWidth 4).toNat = b.toNat := by
      rw [BitVec.toNat_setWidth]
      exact Nat.mod_eq_of_lt (Nat.lt_succ_of_le h)
    simp [h, hkey]
  · simp [h]

theorem exec_skp (x : RegIdx) (s : State) : exec (.skp x) s =
    .next (s.sampledKeys.setPc (if pressed s.keysHeld (s.vreg x) then s.pc + 2 else s.pc)) := exec_eq (.skp x) s

theorem exec_sknp (x : RegIdx) (s : State) : exec (.sknp x) s =
    .next (s.sampledKeys.setPc (if !pressed s.keysHeld (s.vreg x) then s.pc + 2 else s.pc)) := exec_eq (.sknp x) s

/-- Settles O42: both test the same key, and write `PC` on opposite answers. -/
theorem skipOnKeyTestsTheHeldKey : Obligations.SkipOnKeyTestsTheHeldKey := by
  intro x s
  refine ⟨_, _, exec_skp x s, exec_sknp x s, fun keys hkeys => ?_, ?_, rfl, rfl⟩
  · rw [setPc_pc, keysHeld_of_presented hkeys]
    exact if_congr (pressed_iff keys (s.vreg x)) rfl rfl
  · rw [setPc_pc, setPc_pc]
    cases pressed s.keysHeld (s.vreg x)
    · exact .inr ⟨rfl, rfl⟩
    · exact .inl ⟨rfl, rfl⟩

end Sys2Proof.Machine
end

section
/-!
The display instructions (R150, R151): `drawRows_pixel` and `drawRows_collision` for the sprite at `I`, and a second draw of
the same sprite.
-/
namespace Sys2Proof.Machine

/-- Settles O39: the cleared frame has no set bit. -/
theorem clearDisplayClearsEveryPixel : Obligations.ClearDisplayClearsEveryPixel := fun s =>
  ⟨_, exec_eq .cls s, fun _ _ => BitVec.getLsbD_zero, rfl⟩

theorem flagOf_eq_one_iff (c : Bool) : flagOf c = 1 ↔ c = true := by
  cases c <;> decide

theorem fatalOf_drw_of_fits {x y : RegIdx} {n : Nibble} {s : State}
    (h : n = 0 ∨ s.indexAddr + n.toNat ≤ Config.memSize) : fatalOf (.drw x y n) s = none :=
  if_neg fun hout => h.elim hout.1 (Nat.not_le_of_lt hout.2)

/-- Whether a set bit of the sprite that `DRW Vx, Vy, N` draws in `s` lies on a pixel (R151). -/
def State.spriteOn (s : State) (x y : RegIdx) (n : Nibble) (a b : Nat) : Bool :=
  spriteCovers ((s.vreg x).toNat % Config.dispWidth) ((s.vreg y).toNat % Config.dispHeight) (s.bytesAtIndex n.toNat) a b

theorem drawn_pixel (s : State) (x y : RegIdx) (n : Nibble) {a b : Nat} (ha : a < Config.dispWidth)
    (hb : b < Config.dispHeight) : pixel (s.drawn x y n).disp a b = (pixel s.disp a b ^^ s.spriteOn x y n a b) :=
  drawRows_pixel _ _ _ _ ha hb

/-- A draw collides iff it clears some pixel. -/
theorem drawn_collision (s : State) (x y : RegIdx) (n : Nibble) : (s.drawn x y n).collision = true ↔
    ∃ a b, a < Config.dispWidth ∧ b < Config.dispHeight ∧ pixel s.disp a b = true ∧
      pixel (s.drawn x y n).disp a b = false := by
  have hcol := drawRows_collision (Canvas.mk s.disp false) ((s.vreg x).toNat % Config.dispWidth)
    ((s.vreg y).toNat % Config.dispHeight) (s.bytesAtIndex n.toNat)
  simp only [Bool.false_eq_true, false_or] at hcol
  refine hcol.trans (exists_congr fun a => exists_congr fun b => and_congr_right fun ha => and_congr_right fun hb => ?_)
  rw [drawn_pixel s x y n ha hb]
  change s.spriteOn x y n a b = true ∧ pixel s.disp a b = true ↔ _
  cases pixel s.disp a b <;> simp

/-- Settles O40: the pixels and the collision of `State.drawn`, and the flag written last. -/
theorem drawXorsTheSprite : Obligations.DrawXorsTheSprite := by
  intro x y n s hfits
  have hflag : (completed (.drw x y n) s).vreg 0xF#4 = flagOf (s.drawn x y n).collision :=
    vreg_setV_same (s.setDisp _) 0xF#4 _
  refine ⟨_, exec_of_completes (fatalOf_drw_of_fits hfits), fun a b ha hb => drawn_pixel s x y n ha hb, ?_, ?_,
    fun r hr => vreg_setV_of_ne (s.setDisp _) _ hr, rfl⟩
  · rw [hflag, flagOf_eq_one_iff]
    exact drawn_collision s x y n
  · rw [hflag]
    exact flagOf_eq_zero_or_one _

/-- Settles O41: the second draw has the same sprite at the same place, so it flips back what the first flipped. -/
theorem drawingTwiceRestoresTheDisplay : Obligations.DrawingTwiceRestoresTheDisplay := by
  intro x y n s t hx hy h hrun
  rcases execDrw_cases x y n s t h with ⟨-, -, rfl⟩ | ⟨hfits, -⟩
  · exact absurd rfl hrun
  obtain ⟨t', ht', hpix, -, -, hregs, hframe⟩ := drawXorsTheSprite x y n s hfits
  cases ht'.symm.trans h
  have hi : t.i = s.i := (accessFrame_exec h).i_eq (by simp [Instr.kind])
  have hmem : t.mem = s.mem := (accessFrame_exec h).mem_eq (by simp [Instr.kind])
  have hidx : t.indexAddr = s.indexAddr := congrArg BitVec.toNat hi
  obtain ⟨r, hr, hpix', hflag, -⟩ := drawXorsTheSprite x y n t (hidx ▸ hfits)
  rw [hidx, hmem, hregs x hx, hregs y hy] at hpix'
  have hdisp : r.disp = s.disp := frame_ext fun a b ha hb => by
    rw [hpix' a b ha hb, hpix a b ha hb, Bool.xor_assoc, Bool.xor_self, Bool.xor_false]
  refine ⟨r, hr, hdisp, ?_⟩
  rw [hflag, hdisp]
  simp only [and_comm]

end Sys2Proof.Machine
end
